-- ==== Sys2Proof/Word.lean ====
section
/-! DEFINITION. The two word types of the hardware (00_scope.md R7: every value is unsigned). -/

namespace Sys2Proof

/-- A register, a memory cell, an operand byte: 8 bits, unsigned (10_state.md R20, R29). -/
abbrev Byte := BitVec 8

/-- The program counter and what a fault records of it: 9 bits, unsigned (10_state.md R24, R28). -/
abbrev Word9 := BitVec 9

end Sys2Proof
end

