-- ==== Sys2Proof/Config.lean ====
section
/-! DEFINITION. The implementation parameters of 00_scope.md R4, and the values that `State.reset` takes for the two
parameters which R4 marks OPEN. -/

namespace Sys2Proof.Config

/-- MEM_SIZE: addresses 0 to 255 (R4, 20_memory.md R40). -/
abbrev memSize : Nat := 256

/-- NREG: R0 to R7 (R4, 10_state.md R20). -/
abbrev numRegs : Nat := 8

/-- SP_INDEX: R7 is the stack pointer (R4, 10_state.md R22). -/
abbrev spIndex : Fin numRegs := 7

/-- SP_RESET (R4, 10_state.md R34). -/
abbrev spReset : Byte := 244#8

/-- PC_RESET (R4, 10_state.md R34). -/
abbrev pcReset : Word9 := 0#9

/-- MAX_INSN_LEN: an instruction is 1, 2 or 3 bytes (R4, 30_encoding.md R60). -/
abbrev maxInsnLen : Nat := 3

/-- DESIGN CHOICE (log entry 2, unsafe): what `State.reset` puts in R0 to R6. R4 leaves INIT_REGS open;
`State.construct` takes it as an argument. -/
abbrev resetReg : Byte := 0#8

/-- DESIGN CHOICE (log entry 3, unsafe for a claim about `State.reset` alone): what a cell that the memory's list does not name
reads as. R4 leaves INIT_MEM open; `State.construct` takes it as an argument and lists every cell whose value is another. -/
abbrev unlistedByte : Byte := 0#8

end Sys2Proof.Config
end

