-- ==== Sys2Proof/Syntax.lean ====
section
/-! DEFINITION. The instruction set: one constructor per row of spec/opcode_table.json, in its order (30_encoding.md R68).
An operand is the WHOLE operand byte, a register operand too: a byte of 8 or more there "is still decoded as the instruction
the opcode names and then faults with BAD_REGISTER" (R66, R68), so the syntax must be able to hold it. -/

namespace Sys2Proof

/-- `a`, `b`: register operand bytes (R66); `imm`: the immediate byte (R67). -/
inductive Instr where
  | hlt
  | ldi (a imm : Byte)
  | prn (a : Byte)
  | mul (a b : Byte)
  | add (a b : Byte)
  | push (a : Byte)
  | pop (a : Byte)
  | call (a : Byte)
  | ret
  deriving DecidableEq, Repr

end Sys2Proof
end

