-- ==== Sys2Proof/Decode.lean ====
section
/-! DEFINITION. The opcode map, the decoder and the encoder (30_encoding.md). Decoding is by exact match of the whole opcode
byte against the nine rows of R68; the fields of R61 are attributes of a byte and never select an instruction (R63). -/

namespace Sys2Proof

/-! ## The fields of an opcode byte (30_encoding.md R61) -/

/-- Bits 7 to 6, the operand count `n`. -/
def opCount (op : Byte) : Nat := (op >>> 6).toNat

/-- Bit 5, the ALU-class flag; it has no architectural effect (R64). -/
def opAlu (op : Byte) : Bool := op.getLsbD 5

/-- Bit 4, the sets-PC flag. -/
def opSetsPc (op : Byte) : Bool := op.getLsbD 4

/-- Bits 3 to 0, the spec's `id`. -/
def opId (op : Byte) : BitVec 4 := op.setWidth 4

/-- The length in bytes of an instruction with this opcode byte (R62). -/
def opLength (op : Byte) : Nat := 1 + opCount op

/-! ## The opcode map (30_encoding.md R68) -/

/-- The nine rows of R68, in the order of the table. -/
inductive Opcode where
  | hlt | ldi | prn | mul | add | push | pop | call | ret
  deriving DecidableEq, Repr

/-- The byte column of R68. -/
def Opcode.byte : Opcode → Byte
  | .hlt  => 0b00000001#8
  | .ldi  => 0b10000010#8
  | .prn  => 0b01000111#8
  | .mul  => 0b10100010#8
  | .add  => 0b10100000#8
  | .push => 0b01000101#8
  | .pop  => 0b01000110#8
  | .call => 0b01010000#8
  | .ret  => 0b00010001#8

/-- All rows. -/
def Opcode.all : List Opcode := [.hlt, .ldi, .prn, .mul, .add, .push, .pop, .call, .ret]

/-- Look a byte up in the table by exact match (R63, 40_sequencer.md R82). -/
def Opcode.ofByte (op : Byte) : Option Opcode := Opcode.all.find? fun o => o.byte == op

/-! ## The decoder -/

/-- Why a list of bytes is no instruction. -/
inductive DecodeError where
  /-- Byte `k` of the instruction (0 the opcode, 1 operand A, 2 operand B) is not there: the machine takes FETCH_RANGE
  (40_sequencer.md R81, R83). -/
  | missingByte (k : Nat)
  /-- The opcode byte is in no row of the table: the machine takes UNKNOWN_OPCODE (40_sequencer.md R82). -/
  | unknownOpcode (op : Byte)
  deriving DecidableEq, Repr

/-- What decoding answers: the instruction and the bytes after it, or why there is none. -/
abbrev Decoded := Except DecodeError (Instr × List Byte)

/-- An instruction with one operand byte takes it from the front (format R of 30_encoding.md R65). -/
def takeOne (mk : Byte → Instr) : List Byte → Decoded
  | a :: rest => .ok (mk a, rest)
  | [] => .error (.missingByte 1)

/-- An instruction with two operand bytes takes them in increasing order, so the first missing one is reported
(formats RR and RI of 30_encoding.md R65; 40_sequencer.md R83). -/
def takeTwo (mk : Byte → Byte → Instr) : List Byte → Decoded
  | a :: b :: rest => .ok (mk a b, rest)
  | [_] => .error (.missingByte 2)
  | [] => .error (.missingByte 1)

/-- Give a row exactly the operand bytes it declares (40_sequencer.md R83, R85). -/
def decodeOperands : Opcode → List Byte → Decoded
  | .hlt  => fun rest => .ok (.hlt, rest)
  | .ldi  => takeTwo .ldi
  | .prn  => takeOne .prn
  | .mul  => takeTwo .mul
  | .add  => takeTwo .add
  | .push => takeOne .push
  | .pop  => takeOne .pop
  | .call => takeOne .call
  | .ret  => fun rest => .ok (.ret, rest)

/-- Decode the instruction at the front of a list of bytes (40_sequencer.md R81 to R83). An unknown opcode is reported before
any operand byte is asked for (60_exceptions.md R148). -/
def decode : List Byte → Decoded
  | [] => .error (.missingByte 0)
  | op :: rest =>
    match Opcode.ofByte op with
    | none => .error (.unknownOpcode op)
    | some o => decodeOperands o rest

/-! ## The encoder -/

/-- The bytes of an instruction, in increasing addresses (30_encoding.md R60, and the full encodings under R68). -/
def encode : Instr → List Byte
  | .hlt => [0b00000001#8]
  | .ldi a imm => [0b10000010#8, a, imm]
  | .prn a => [0b01000111#8, a]
  | .mul a b => [0b10100010#8, a, b]
  | .add a b => [0b10100000#8, a, b]
  | .push a => [0b01000101#8, a]
  | .pop a => [0b01000110#8, a]
  | .call a => [0b01010000#8, a]
  | .ret => [0b00010001#8]

/-! ## Words numbered as the opcode table numbers them -/

/-- Byte `k` of a table word: bits `8k+7` to `8k` (bit 0 the least significant bit of the first byte), with every bit at
`nbits` and above read as 0. -/
def tableByte (nbits w k : Nat) : Byte := BitVec.ofNat 8 ((w % 2 ^ nbits) / 2 ^ (8 * k))

/-- The bytes of a table word, up to the longest instruction, the first at the lowest address. -/
def tableBytes (nbits w : Nat) : List Byte := (List.range Config.maxInsnLen).map (tableByte nbits w)

/-- The instruction the decoder reads from a table word; none where it rejects the bytes. -/
def decodeTableWord (nbits w : Nat) : Option Instr :=
  match decode (tableBytes nbits w) with
  | .ok (i, _) => some i
  | .error _ => none

end Sys2Proof
end

