-- ==== Sys2Proof/Machine/State.lean ====
section
/-! DEFINITION. The complete state of the block between steps (10_state.md R33), the two ways the model stops, and the
machine right after reset with no program image (10_state.md R34, 70_reset_and_hazards.md R170). -/

namespace Sys2Proof.Machine

/-- A register index that has passed the operand check: R0 to R7 (10_state.md R20). -/
abbrev Reg := Fin Config.numRegs

/-- The running flag (10_state.md R26). -/
inductive RunState where
  | running
  | halted
  deriving DecidableEq, Repr

/-- The causes of a fault (60_exceptions.md R140). -/
inductive FaultCause where
  | unknownOpcode
  | badRegister
  | fetchRange
  | retaddrRange
  | internal
  deriving DecidableEq, Repr

/-- What `halt_cause` can hold (10_state.md R28, 60_exceptions.md R140); its 3-bit code is `HaltCause.code`.
DEDUCED (log entry 10, safe): the code 7, never written, has no value. -/
inductive HaltCause where
  | none
  | halt
  | fault (c : FaultCause)
  deriving DecidableEq, Repr

/-- Memory: the cells whose byte is another than `Config.unlistedByte`, by strictly rising address (`Memory.wf`). -/
abbrev Memory := List Host.Cell

/-- 10_state.md R33. -/
structure State where
  /-- 256 cells of 8 bits (R29). -/
  mem : Memory
  /-- `x[0]` to `x[7]`; `x[7]` is the stack pointer (R20, R22). -/
  regs : Vector Byte Config.numRegs
  /-- The address of the next instruction, or of the executing one during a step (R24). -/
  pc : Word9
  /-- The running flag (R26). -/
  run : RunState
  /-- Why the machine halted, NONE while it runs (R28). -/
  haltCause : HaltCause
  /-- The address of the instruction that faulted (R28). -/
  faultPc : Word9
  /-- The value the fault's cause names (R28). -/
  faultInfo : Word9
  /-- The console output so far, oldest first (R31). -/
  out : List Byte
  deriving DecidableEq, Repr

/-- Why a step answers no state. Every fault of 60_exceptions.md R140 is a NEXT state and none of these. -/
inductive Fault where
  /-- Raised by `step` alone, for a machine whose running flag is Halted: it "has no step: it is final" (40_sequencer.md R80).
  DEDUCED (log entry 1), safe: the spec gives no next state either. -/
  | halted
  deriving DecidableEq, Repr

/-- Why an instruction has no meaning in the model. -/
inductive Refusal where
  /-- Raised by no arm of `exec`: every instruction of the table has its meaning. Safe. -/
  | notModelled (mnemonic : String)
  deriving DecidableEq, Repr

/-- What a step, and a meaning, answers. -/
abbrev Result := Host.Outcome State Fault Refusal

/-- The machine right after reset with an empty image (10_state.md R34). `x[0]` to `x[6]` are DESIGN CHOICE (log entry 2), the
cells are DESIGN CHOICE (log entry 3); both are open in the spec. -/
def State.reset : State where
  mem := []
  regs := #v[Config.resetReg, Config.resetReg, Config.resetReg, Config.resetReg,
    Config.resetReg, Config.resetReg, Config.resetReg, Config.spReset]
  pc := Config.pcReset
  run := .running
  haltCause := .none
  faultPc := 0#9
  faultInfo := 0#9
  out := []

end Sys2Proof.Machine
end

