-- ==== Sys2Proof/Machine/Flags.lean ====
section
/-! DEFINITION. The only status flag is the running flag, written by HLT and by every fault and by nothing else
(10_state.md R26, R27). No instruction computes any other flag: there are no condition codes (R27). -/

namespace Sys2Proof.Machine

/-- Clear the running flag and record why (40_sequencer.md R88, 60_exceptions.md R146). -/
def State.halt (c : HaltCause) (s : State) : State := { s with run := .halted, haltCause := c }

/-- The 3-bit code of the status output `halt_cause` (10_state.md R28, 60_exceptions.md R140); 7 is never written. -/
def HaltCause.code : HaltCause → BitVec 3
  | .none => 0
  | .halt => 1
  | .fault .unknownOpcode => 2
  | .fault .badRegister => 3
  | .fault .fetchRange => 4
  | .fault .retaddrRange => 5
  | .fault .internal => 6

end Sys2Proof.Machine
end

