-- ==== Sys2Proof/Machine/Memory.lean ====
section
/-! DEFINITION. Reading and writing one memory cell, the only two operations memory has (20_memory.md R41), and the
canonical form of the list that holds it. -/

namespace Sys2Proof.Machine

/-- The canonical form: addresses strictly rising, each inside memory, no entry equal to what an unlisted cell reads as. -/
abbrev Memory.wf (m : Memory) : Prop :=
  m.Pairwise (fun c d => c.1 < d.1) ∧ ∀ c ∈ m, c.1 < Config.memSize ∧ c.2 ≠ Config.unlistedByte

/-- The byte a cell holds (20_memory.md R41, R49). -/
def Memory.get : Memory → Nat → Byte
  | [], _ => Config.unlistedByte
  | (b, w) :: m, a => if a = b then w else Memory.get m a

/-- The entry a cell has in the list: none when its byte is what an unlisted cell reads as. -/
def Memory.entry (a : Nat) (v : Byte) : List Host.Cell := if v = Config.unlistedByte then [] else [(a, v)]

/-- Set one cell and change no other (20_memory.md R41), keeping the canonical form. -/
def Memory.put : Memory → Nat → Byte → Memory
  | [], a, v => Memory.entry a v
  | (b, w) :: m, a, v =>
    if a < b then Memory.entry a v ++ (b, w) :: m
    else if a = b then Memory.entry a v ++ m
    else (b, w) :: Memory.put m a v

/-- A read at an address that a fetch formed: none outside 0 to 255, where "both fail" (20_memory.md R41). -/
def Memory.read? (m : Memory) (a : Nat) : Option Byte :=
  if a < Config.memSize then some (m.get a) else none

end Sys2Proof.Machine
end

