-- ==== Sys2Proof/Machine/Ops.lean ====
section
/-! DEFINITION. The named operations over registers, memory, the console and the program counter that every meaning is
written with (00_scope.md R8), fetching an instruction's bytes, and the entry of a fault. -/

namespace Sys2Proof.Machine

/-- `zext_9` (00_scope.md R7). -/
def zext9 (v : Byte) : Word9 := v.setWidth 9

/-- `v[7:0]` of a 9-bit value (00_scope.md R6). -/
def low8 (v : Word9) : Byte := v.setWidth 8

/-! ## Registers -/

/-- `x[r]` (00_scope.md R8). -/
def State.reg (s : State) (r : Reg) : Byte := s.regs.get r

/-- `x[r] <- v` (00_scope.md R8). -/
def State.setReg (s : State) (r : Reg) (v : Byte) : State := { s with regs := s.regs.set r.val v r.isLt }

/-- `sp` is another name for `x[7]` (10_state.md R22). -/
abbrev State.sp (s : State) : Byte := s.reg Config.spIndex

/-- `sp <- v` writes `x[7]` (10_state.md R22). -/
abbrev State.setSp (s : State) (v : Byte) : State := s.setReg Config.spIndex v

/-- `sp <- (sp - 1) mod 256`; 0 becomes 255 with no fault (43_stack_call.md R121, R125). -/
def State.decSp (s : State) : State := s.setSp (s.sp - 1#8)

/-- `sp <- (sp + 1) mod 256`; 255 becomes 0 with no fault (43_stack_call.md R122, R125). -/
def State.incSp (s : State) : State := s.setSp (s.sp + 1#8)

/-- `pc <- target` (00_scope.md R8). -/
def State.setPc (s : State) (target : Word9) : State := { s with pc := target }

/-! ## Memory: a data address is an 8-bit register value, so it is always inside memory (20_memory.md R41, R42) -/

/-- The byte at an address, as a model observes it. -/
def State.byteAt (s : State) (a : Nat) : Byte := s.mem.get a

/-- `MemRead(a, 1)` of a data access. -/
def State.load (s : State) (a : Byte) : Byte := s.byteAt a.toNat

/-- `MemWrite(a, 1, v)` of a data access. -/
def State.store (s : State) (a v : Byte) : State := { s with mem := s.mem.put a.toNat v }

/-! ## Console -/

/-- `emit Console(v)`: one event, after all earlier ones; the sink always accepts (60_exceptions.md R153). -/
def State.emit (s : State) (v : Byte) : State := { s with out := s.out ++ [v] }

/-! ## Sequencer -/

/-- Up to `k` bytes at increasing addresses from `a`, ending where memory ends: "the engine must never read past the end of
memory itself" (40_sequencer.md R81, R83). -/
def Memory.window (m : Memory) (a : Nat) : Nat → List Byte
  | 0 => []
  | k + 1 =>
    match m.read? a with
    | some b => b :: Memory.window m (a + 1) k
    | none => []

/-- The opcode byte at `pc` and the candidate operand bytes after it, those that lie inside memory (40_sequencer.md R81, R83). -/
def State.fetchWindow (s : State) : List Byte := s.mem.window s.pc.toNat Config.maxInsnLen

/-- Lay bytes at increasing addresses from `a`, those that lie inside memory. -/
def layBytes (m : Memory) (a : Nat) : List Byte → Memory
  | [] => m
  | b :: bs => if a < Config.memSize then layBytes (m.put a b) (a + 1) bs else m

/-- After the handler of the instruction at `a`: `pc <- a + 1 + op[7:6]` when the sets-PC flag of its opcode byte is clear; "if
set, leave PC exactly as the handler set it" (40_sequencer.md R87). DEDUCED (log entry 6, safe): the 9-bit sum is exact for every
`pc` that a step hands to a handler. -/
def State.advance (s : State) (op : Byte) (a : Word9) : State :=
  if opSetsPc op then s else s.setPc (a + BitVec.ofNat 9 (opLength op))

/-! ## Taking a fault -/

/-- Fault entry (60_exceptions.md R146), the one shared operation of every fault: applied to the state before any write of the
step, it clears the running flag and records the cause, the address of the instruction and the value the cause names; `pc`,
registers, memory and console keep their values. There is no handler, and no return from a fault (R149). -/
def State.takeFault (s : State) (c : FaultCause) (info : Word9) : State :=
  { s.halt (.fault c) with faultPc := s.pc, faultInfo := info }

/-- The fault a step takes where the bytes at `pc` are no instruction: FETCH_RANGE names the first address past memory,
UNKNOWN_OPCODE the opcode byte (40_sequencer.md R81 to R83). -/
def State.takeDecodeFault (s : State) : DecodeError → State
  | .missingByte k => s.takeFault .fetchRange (s.pc + BitVec.ofNat 9 k)
  | .unknownOpcode op => s.takeFault .unknownOpcode (zext9 op)

end Sys2Proof.Machine
end

