-- ==== Sys2Proof/Machine/Operands.lean ====
section
/-! DEFINITION. The two operand kinds (30_encoding.md R66, R67): a register index, checked before the instruction writes
anything, and an immediate, never checked. -/

namespace Sys2Proof.Machine

/-- The register an operand byte names: the whole byte is the index, "with no masking" (30_encoding.md R66). -/
def regOperand (b : Byte) : Option Reg := if h : b.toNat < Config.numRegs then some ⟨b.toNat, h⟩ else none

/-- Go on with the register an operand byte names, or take BAD_REGISTER with that byte (40_sequencer.md R84).
DEDUCED (log entry 4, safe): the check is made here, first in every meaning, and not by `decode`. -/
def withReg (b : Byte) (s : State) (k : Reg → Result) : Result :=
  match regOperand b with
  | some r => k r
  | none => .next (s.takeFault .badRegister (zext9 b))

/-- Two register operands, "operand A before operand B" (40_sequencer.md R84). -/
def withRegs (a b : Byte) (s : State) (k : Reg → Reg → Result) : Result :=
  withReg a s fun ra => withReg b s fun rb => k ra rb

/-- The immediate is the whole operand byte, "without extension, scaling or shifting" (30_encoding.md R67). -/
def immOperand (b : Byte) : Byte := b

end Sys2Proof.Machine
end

