-- ==== Sys2Proof/Machine/Alu.lean ====
section
/-! DEFINITION. The ALU and its two instructions, MUL and ADD (42_alu.md R110 to R114). -/

namespace Sys2Proof.Machine

/-- The result of the ALU operation with this opcode byte: the exact product or sum of the unsigned operands, then its low 8
bits (42_alu.md R111, R112, R114); none for an operation the ALU does not support (R113).
DEDUCED (log entry 8, safe): the opcode byte names the operation. -/
def aluResult (op : Byte) (u v : Byte) : Option Byte :=
  if op = Opcode.mul.byte then some (BitVec.ofNat 8 (u.toNat * v.toNat))
  else if op = Opcode.add.byte then some (BitVec.ofNat 8 (u.toNat + v.toNat))
  else none

/-- `apply(operation, register_a, register_b)`: both registers are read, then `register_a` is written (42_alu.md R110). An
unsupported operation is the INTERNAL fault, which no decoded instruction reaches (R113, 60_exceptions.md R145). -/
def aluApply (op : Byte) (ra rb : Reg) (s : State) : Result :=
  match aluResult op (s.reg ra) (s.reg rb) with
  | some v => .next ((s.setReg ra v).advance op s.pc)
  | none => .next (s.takeFault .internal (zext9 op))

/-- MUL: `x[A] <- (x[A] * x[B]) mod 256` (42_alu.md R111). -/
def execMul (a b : Byte) (s : State) : Result :=
  withRegs a b s fun ra rb => aluApply Opcode.mul.byte ra rb s

/-- ADD: `x[A] <- (x[A] + x[B]) mod 256` (42_alu.md R112). -/
def execAdd (a b : Byte) (s : State) : Result :=
  withRegs a b s fun ra rb => aluApply Opcode.add.byte ra rb s

end Sys2Proof.Machine
end

