-- ==== Sys2Proof/Machine/DataMovement.lean ====
section
/-! DEFINITION. LDI and PRN (41_data_movement.md R100, R101). -/

namespace Sys2Proof.Machine

/-- LDI: `x[A] <- B` (41_data_movement.md R100). -/
def execLdi (a imm : Byte) (s : State) : Result :=
  withReg a s fun r => .next ((s.setReg r (immOperand imm)).advance Opcode.ldi.byte s.pc)

/-- PRN: `emit Console(x[A])` (41_data_movement.md R101). -/
def execPrn (a : Byte) (s : State) : Result :=
  withReg a s fun r => .next ((s.emit (s.reg r)).advance Opcode.prn.byte s.pc)

end Sys2Proof.Machine
end

