-- ==== Sys2Proof/Machine/Sequencer.lean ====
section
/-! DEFINITION. The sequencer's own instruction, HLT (40_sequencer.md R90). -/

namespace Sys2Proof.Machine

/-- HLT: its handler does nothing; the advance precedes the halt, so the final `pc` is the HLT's address plus 1
(40_sequencer.md R87, R88, R90). -/
def execHlt (s : State) : Result :=
  .next ((s.advance Opcode.hlt.byte s.pc).halt .halt)

end Sys2Proof.Machine
end

