-- ==== Sys2Proof/Machine/StackCall.lean ====
section
/-! DEFINITION. PUSH, POP, CALL and RET (43_stack_call.md R121 to R124). Statements run in the order written and a read after a
write sees the write (00_scope.md R9): this decides the forms that name R7. -/

namespace Sys2Proof.Machine

/-- Store at the new top of the stack, after the decrement, the byte that `v` reads there: "decrement-then-store"
(43_stack_call.md R121, R123). -/
def State.pushByte (s : State) (v : State → Byte) : State :=
  s.decSp.store s.decSp.sp (v s.decSp)

/-- The byte at the top of the stack (43_stack_call.md R122, R124). -/
def State.topByte (s : State) : Byte := s.load s.sp

/-- PUSH: `x[A]` is read after `sp` is written, so PUSH R7 stores the decremented `sp` (43_stack_call.md R121). -/
def execPush (a : Byte) (s : State) : Result :=
  withReg a s fun r => .next ((s.pushByte fun s' => s'.reg r).advance Opcode.push.byte s.pc)

/-- POP: `sp` is read after `x[A]` is written, so POP R7 leaves the popped byte plus 1 (43_stack_call.md R122). -/
def execPop (a : Byte) (s : State) : Result :=
  withReg a s fun r => .next ((s.setReg r s.topByte).incSp.advance Opcode.pop.byte s.pc)

/-- CALL's return address, "PC + (byte width of the CALL instruction, i.e. 2)" (43_stack_call.md R123). -/
def returnAddress (s : State) : Word9 := s.pc + 2#9

/-- CALL: RETADDR_RANGE before any write where the return address is 256; else push it and jump to `x[A]`, read after `sp` is
written (43_stack_call.md R123). -/
def execCall (a : Byte) (s : State) : Result :=
  withReg a s fun r =>
    if Config.memSize ≤ s.pc.toNat + 2 then .next (s.takeFault .retaddrRange (returnAddress s))
    else
      let s' := s.pushByte fun _ => low8 (returnAddress s)
      .next ((s'.setPc (zext9 (s'.reg r))).advance Opcode.call.byte s.pc)

/-- RET: `pc` takes the byte at the top of the stack, then `sp` is incremented (43_stack_call.md R124). -/
def execRet (s : State) : Result :=
  .next ((s.setPc (zext9 s.topByte)).incSp.advance Opcode.ret.byte s.pc)

end Sys2Proof.Machine
end

