-- ==== Sys2Proof/Machine/Step.lean ====
section
/-! DEFINITION. One step of the machine (40_sequencer.md R80 to R89). -/

namespace Sys2Proof.Machine

/-- The step of 40_sequencer.md R89. A halted machine has no step (R80); bytes that are no instruction are a fault of the
machine, which is a next state (60_exceptions.md R146). -/
def step (s : State) : Host.Outcome State Fault Refusal :=
  match s.run with
  | .halted => .fault .halted
  | .running =>
    match decode s.fetchWindow with
    | .ok (i, _) => exec i s
    | .error e => .next (s.takeDecodeFault e)

/-- The state with a table word stored where `step` fetches its next instruction, at `pc`; nothing else changes.
DESIGN CHOICE (log entry 5, safe): it stands for the loader, and does not set a halted machine running. -/
def State.withFetchWord (s : State) (nbits w : Nat) : State :=
  { s with mem := layBytes s.mem s.pc.toNat (tableBytes nbits w) }

end Sys2Proof.Machine
end

