-- ==== Sys2Proof/Machine/Boot.lean ====
section
/-! DEFINITION. Reset as the spec gives it, the construction of a machine from a program image (70_reset_and_hazards.md R170),
with the two OPEN parameters of 00_scope.md R4 as arguments. -/

namespace Sys2Proof.Machine

/-- The byte a cell holds at reset: the image's, and past its end INIT_MEM's (10_state.md R34). -/
def resetByte (initMem : Nat → Byte) (image : List Byte) (a : Nat) : Byte := image.getD a (initMem a)

/-- Memory at reset, in its canonical form. -/
def Memory.boot (initMem : Nat → Byte) (image : List Byte) : Memory :=
  (List.range Config.memSize).flatMap fun a => Memory.entry a (resetByte initMem image a)

/-- The registers at reset: INIT_REGS in R0 to R6, 244 in R7 (10_state.md R34). -/
def bootRegs (initRegs : Fin 7 → Byte) : Vector Byte Config.numRegs :=
  #v[initRegs 0, initRegs 1, initRegs 2, initRegs 3, initRegs 4, initRegs 5, initRegs 6, Config.spReset]

/-- The machine constructed from an image; an image longer than memory is refused and no machine is constructed
(60_exceptions.md R154). -/
def State.construct (initRegs : Fin 7 → Byte) (initMem : Nat → Byte) (image : List Byte) : Option State :=
  if image.length ≤ Config.memSize then
    some { State.reset with mem := Memory.boot initMem image, regs := bootRegs initRegs }
  else none

end Sys2Proof.Machine
end

