-- ==== Sys2Proof/Machine/Loader.lean ====
section
/-! DEFINITION. The program image's text form (30_encoding.md R72). It stands outside the block, which "sees only the resulting
byte sequence"; `State.construct` takes that sequence. -/

namespace Sys2Proof.Machine

/-- The lines of a text. -/
def textLines : List Char → List (List Char)
  | [] => [[]]
  | c :: cs =>
    if c = '\n' then [] :: textLines cs
    else match textLines cs with
      | [] => [[c]]
      | l :: ls => (c :: l) :: ls

/-- A line without its comment: "everything from a `#` character to end of line" is ignored (R72). -/
def stripComment : List Char → List Char
  | [] => []
  | c :: cs => if c = '#' then [] else c :: stripComment cs

/-- DESIGN CHOICE (log entry 7): spaces, tabs and carriage returns around a literal are no part of it. -/
def isBlank (c : Char) : Bool := c = ' ' || c = '\t' || c = '\r'

/-- The text between the outermost blanks. -/
def trimBlanks (cs : List Char) : List Char := ((cs.dropWhile isBlank).reverse.dropWhile isBlank).reverse

/-- A binary digit's value. -/
def binDigit : Char → Option Nat
  | '0' => some 0
  | '1' => some 1
  | _ => none

/-- The value of binary digits, most significant first (00_scope.md R6), after those read as `acc`. -/
def binValue (acc : Nat) : List Char → Option Nat
  | [] => some acc
  | c :: cs =>
    match binDigit c with
    | some d => binValue (2 * acc + d) cs
    | none => none

/-- The 8 binary digits of a byte, most significant first (00_scope.md R6): the literal that R72 writes for it. -/
def binDigits (b : Byte) : List Char := (List.range 8).map fun k => if b.getLsbD (7 - k) then '1' else '0'

/-- The byte a line gives: an 8-character binary literal; a blank line, a comment line and a line that does not parse give none
(R72). -/
def lineByte (line : List Char) : Option Byte :=
  let lit := trimBlanks (stripComment line)
  if lit.length = 8 then (binValue 0 lit).map (BitVec.ofNat 8) else none

/-- The image a text holds: its bytes in order, the lines that give none skipped (R72). -/
def loadText (text : List Char) : List Byte := (textLines text).filterMap lineByte

end Sys2Proof.Machine
end

