-- ==== Sys2Proof/Safety.lean ====
section
/-! DEFINITION. What counts as a safe run (40_sequencer.md R92, 60_exceptions.md R140), the invariant of the machine, and the
terms in which claims speak of a step: what it kept, and how it halted. -/

namespace Sys2Proof.Machine

/-! ## How a run ended -/

/-- The run ended and ended cleanly: `halt_cause = 1` (40_sequencer.md R92). -/
def State.endedCleanly (s : State) : Prop := s.run = .halted ∧ s.haltCause = .halt

/-- The run ended in error: `halt_cause` is one of the fault causes (40_sequencer.md R92). -/
def State.endedInError (s : State) : Prop := s.run = .halted ∧ ∃ c, s.haltCause = .fault c

/-! ## The invariant -/

/-- What the halt record of each fault cause says of the state (the table of 60_exceptions.md R140). -/
def State.faultRecordOk (s : State) : FaultCause → Prop
  | .unknownOpcode => s.pc.toNat < 256 ∧ Opcode.ofByte (s.byteAt s.pc.toNat) = none ∧
      s.faultInfo = zext9 (s.byteAt s.pc.toNat)
  | .badRegister => 8 ≤ s.faultInfo.toNat ∧ s.faultInfo.toNat < 256
  | .fetchRange => s.faultInfo = 256#9
  | .retaddrRange => s.pc = 254#9 ∧ s.faultInfo = 256#9
  | .internal => False

/-- The running flag and the halt record agree (10_state.md R26, R28; 60_exceptions.md R140, R146). -/
def State.recordOk (s : State) : Prop :=
  match s.haltCause with
  | .none => s.run = .running ∧ s.faultPc = 0#9 ∧ s.faultInfo = 0#9
  | .halt => s.run = .halted ∧ s.faultPc = 0#9 ∧ s.faultInfo = 0#9
  | .fault c => s.run = .halted ∧ s.faultPc = s.pc ∧ s.faultRecordOk c

/-- The memory list is canonical, `pc` is one of 0 to 256 (10_state.md R24), and the halt record is one that the machine can
write. -/
structure State.Inv (s : State) : Prop where
  mem : s.mem.wf
  pc : s.pc.toNat ≤ 256
  record : s.recordOk

/-- The states a machine can come to: constructed from any image, with any contents of what the spec leaves open
(70_reset_and_hazards.md R170, R171), then stepped any number of times (60_exceptions.md R155). -/
inductive Reachable : State → Prop where
  | construct {initRegs : Fin 7 → Byte} {initMem : Nat → Byte} {image : List Byte} {s : State} :
      State.construct initRegs initMem image = some s → Reachable s
  | step {s t : State} : Reachable s → Machine.step s = .next t → Reachable t

/-! ## What a step kept -/

/-- Every register but those listed. -/
def KeepsRegsBut (ds : List Reg) (s t : State) : Prop := ∀ r, r ∉ ds → t.reg r = s.reg r

/-- Every byte of memory. -/
def KeepsMemory (s t : State) : Prop := ∀ x, t.byteAt x = s.byteAt x

/-- Every byte of memory but the one at an address. -/
def KeepsMemoryBut (a : Byte) (s t : State) : Prop := ∀ x, x ≠ a.toNat → t.byteAt x = s.byteAt x

/-- The console output. -/
def KeepsOutput (s t : State) : Prop := t.out = s.out

/-- The running flag and the three status registers. -/
def KeepsStatus (s t : State) : Prop :=
  t.run = s.run ∧ t.haltCause = s.haltCause ∧ t.faultPc = s.faultPc ∧ t.faultInfo = s.faultInfo

/-! ## How a step faulted -/

/-- `t` is `s` halted by a fault: the four writes of 60_exceptions.md R146 and nothing else. -/
def HaltsWith (c : FaultCause) (info : Word9) (s t : State) : Prop :=
  t.run = .halted ∧ t.haltCause = .fault c ∧ t.faultPc = s.pc ∧ t.faultInfo = info ∧
  t.pc = s.pc ∧ KeepsRegsBut [] s t ∧ KeepsMemory s t ∧ KeepsOutput s t

/-- The step at `s` takes a fault. -/
def StepHalts (c : FaultCause) (info : Word9) (s : State) : Prop :=
  ∃ t, step s = .next t ∧ HaltsWith c info s t

/-- The instruction, executed at `s`, takes a fault. -/
def ExecHalts (i : Instr) (c : FaultCause) (info : Word9) (s : State) : Prop :=
  ∃ t, exec i s = .next t ∧ HaltsWith c info s t

/-! ## What a step fetches -/

/-- The machine runs and its next opcode byte is `op`. -/
def FetchesOpcode (op : Byte) (s : State) : Prop :=
  s.run = .running ∧ s.pc.toNat < 256 ∧ s.byteAt s.pc.toNat = op

/-- The opcode byte `op`, with no operand, is the instruction `i`: where `pc` lies past memory the step takes FETCH_RANGE, and
where the opcode byte lies at `pc` it executes `i` (30_encoding.md R60, R68; 40_sequencer.md R81). -/
def FetchedAlone (op : Byte) (i : Instr) : Prop :=
  (∀ s : State, s.run = .running → 256 ≤ s.pc.toNat → StepHalts .fetchRange s.pc s) ∧
  (∀ s, FetchesOpcode op s → step s = exec i s)

/-- The opcode byte `op` with `n` operand bytes, 1 or 2, is the instruction `mk A B`: where `pc` or a declared operand byte lies
past memory the step takes FETCH_RANGE, and else it executes the instruction with the bytes after the opcode (30_encoding.md
R60, R68; 40_sequencer.md R81, R83). For `n = 1`, `mk` ignores the second byte. -/
def FetchedAs (op : Byte) (n : Nat) (mk : Byte → Byte → Instr) : Prop :=
  (∀ s : State, s.run = .running → 256 ≤ s.pc.toNat → StepHalts .fetchRange s.pc s) ∧
  (∀ s, FetchesOpcode op s → 256 ≤ s.pc.toNat + n → StepHalts .fetchRange 256#9 s) ∧
  (∀ s, FetchesOpcode op s → s.pc.toNat + n < 256 →
    step s = exec (mk (s.byteAt (s.pc.toNat + 1)) (s.byteAt (s.pc.toNat + 2))) s)

/-- The operand bytes that an instruction's format makes register indices, operand A first (30_encoding.md R65). -/
def regOperands : Instr → List Byte
  | .hlt | .ret => []
  | .ldi a _ | .prn a | .push a | .pop a | .call a => [a]
  | .mul a b | .add a b => [a, b]

/-- The first register operand byte that is no register index, operand A before operand B (40_sequencer.md R84). -/
def firstBadRegister (i : Instr) : Option Byte := (regOperands i).find? fun b => 8 ≤ b.toNat

/-- The nine opcode bytes, as the opcode map writes them (30_encoding.md R68). -/
def specOpcodes : List Byte := [0x01#8, 0x82#8, 0x47#8, 0xA2#8, 0xA0#8, 0x45#8, 0x46#8, 0x50#8, 0x11#8]

/-- The first of the checks of 60_exceptions.md R148 that fails at `s`, with the value it records, written from that list and the
opcode map alone: it names neither the decoder nor any meaning. -/
def firstFault (s : State) : Option (FaultCause × Word9) :=
  let a := s.pc.toNat
  let op := s.byteAt a
  let opA := s.byteAt (a + 1)
  let opB := s.byteAt (a + 2)
  if 256 ≤ a then some (.fetchRange, s.pc)
  else if op ∉ specOpcodes then some (.unknownOpcode, zext9 op)
  else if 256 ≤ a + op.toNat / 64 then some (.fetchRange, 256#9)
  else if op ∉ [0x01#8, 0x11#8] ∧ 8 ≤ opA.toNat then some (.badRegister, zext9 opA)
  else if op ∈ [0xA2#8, 0xA0#8] ∧ 8 ≤ opB.toNat then some (.badRegister, zext9 opB)
  else if op = 0x50#8 ∧ a = 254 then some (.retaddrRange, 256#9)
  else none

end Sys2Proof.Machine
end

