-- ==== Sys2Proof/WellFormed.lean ====
section
/-! DEFINITION. When an instruction's operands are all valid: every byte the format makes a register index is below 8
(30_encoding.md R65, R66). The immediate of LDI is never checked (R67, 40_sequencer.md R84). -/

namespace Sys2Proof

/-- A register operand byte is valid "iff its value is less than 8" (30_encoding.md R66). -/
def validReg (b : Byte) : Bool := b.toNat < Config.numRegs

/-- Every register operand of the instruction is valid. -/
def Instr.wellFormed : Instr → Bool
  | .hlt => true
  | .ldi a _ => validReg a
  | .prn a => validReg a
  | .mul a b => validReg a && validReg b
  | .add a b => validReg a && validReg b
  | .push a => validReg a
  | .pop a => validReg a
  | .call a => validReg a
  | .ret => true

end Sys2Proof
end

