-- ==== Sys2Proof/Certificates/Slice0/Obligations.lean ====
section
/-! DEFINITION. The statements for the provers, from the numbered rules of spec/. A register operand is written as a byte `a`
with `a.toNat = r.val`: it names register `r`; the bytes of 8 and more are the BAD_REGISTER clauses. -/

open Sys2Proof Sys2Proof.Machine

/-! ## Encoding (30_encoding.md) -/

/-- The decoder reads an instruction exactly from its encoding: nothing else decodes to it, and no operand bit is dropped. -/
def Obligations.DecodeAcceptsExactlyTheEncodings : Prop :=
  ∀ (bs rest : List Byte) (i : Instr), decode bs = .ok (i, rest) ↔ bs = encode i ++ rest

/-- R69, over the rows of R68: each row decodes from its byte, its fields are those of the byte, CALL's width is 2, and no two
rows share a byte. -/
def Obligations.OpcodeMapDecodes : Prop :=
  (∀ (a b : Byte) (rest : List Byte),
    decode (0b00000001#8 :: rest) = .ok (.hlt, rest) ∧
    decode (0b10000010#8 :: a :: b :: rest) = .ok (.ldi a b, rest) ∧
    decode (0b01000111#8 :: a :: rest) = .ok (.prn a, rest) ∧
    decode (0b10100010#8 :: a :: b :: rest) = .ok (.mul a b, rest) ∧
    decode (0b10100000#8 :: a :: b :: rest) = .ok (.add a b, rest) ∧
    decode (0b01000101#8 :: a :: rest) = .ok (.push a, rest) ∧
    decode (0b01000110#8 :: a :: rest) = .ok (.pop a, rest) ∧
    decode (0b01010000#8 :: a :: rest) = .ok (.call a, rest) ∧
    decode (0b00010001#8 :: rest) = .ok (.ret, rest)) ∧
  specOpcodes.map (fun op => (opCount op, opAlu op, opSetsPc op, opId op)) =
    [(0, false, false, 0b0001#4), (2, false, false, 0b0010#4), (1, false, false, 0b0111#4),
     (2, true, false, 0b0010#4), (2, true, false, 0b0000#4), (1, false, false, 0b0101#4),
     (1, false, false, 0b0110#4), (1, false, true, 0b0000#4), (0, false, true, 0b0001#4)] ∧
  opLength 0x50#8 = 2 ∧ specOpcodes.Nodup

/-- R62: the opcode byte alone decides the length, and the operand count 3 belongs to no instruction. -/
def Obligations.OpcodeByteDecidesLength : Prop :=
  ∀ (op : Byte) (bs rest : List Byte) (i : Instr),
    (decode (op :: bs) = .ok (i, rest) →
      (op :: bs).length = 1 + op.toNat / 64 + rest.length ∧ op.toNat / 64 < 3) ∧
    (op.toNat / 64 = 3 → decode (op :: bs) = .error (.unknownOpcode op))

/-- R70, R82, R141: 247 byte values are no opcode, and each of them, fetched as one at any address, halts the machine before any
operand is used and records the byte. -/
def Obligations.OtherBytesAreIllegalOpcodes : Prop :=
  ((List.range 256).filter fun n => BitVec.ofNat 8 n ∉ specOpcodes).length = 247 ∧
  ∀ (op : Byte) (s : State), op ∉ specOpcodes → FetchesOpcode op s → StepHalts .unknownOpcode (zext9 op) s

/-! ## The step (40_sequencer.md) -/

/-- R80: a halted machine has no step, and only a halted machine has none; at reset the machine runs. That a step which does
not exist is answered by the stop `Fault.halted` is the model's choice: log entry 1 (DEDUCED). -/
def Obligations.OnlyHaltedMachinesHaveNoStep : Prop :=
  (∀ initRegs initMem image s, State.construct initRegs initMem image = some s → s.run = .running) ∧
  ∀ s : State, (s.run = .halted ↔ step s = .fault .halted) ∧ (s.run = .running ↔ ∃ t, step s = .next t)

/-- A step of a running machine runs the instruction that the bytes at `pc` decode to. -/
def Obligations.StepRunsDecodedInstruction : Prop :=
  ∀ (s : State) (i : Instr) (rest : List Byte),
    s.run = .running → decode s.fetchWindow = .ok (i, rest) → step s = exec i s

/-- R87: what `pc` holds after a step that took no fault. -/
def Obligations.PcAfterStep : Prop :=
  ∀ s t : State, step s = .next t → (∀ c info, ¬ HaltsWith c info s t) →
    (opSetsPc (s.byteAt s.pc.toNat) = false →
      t.pc.toNat = s.pc.toNat + 1 + (s.byteAt s.pc.toNat).toNat / 64 ∧ t.pc.toNat ≤ 256) ∧
    (opSetsPc (s.byteAt s.pc.toNat) = true →
      (s.byteAt s.pc.toNat = 0x50#8 ∧
        ∃ r : Reg, (s.byteAt (s.pc.toNat + 1)).toNat = r.val ∧ t.pc = zext9 (t.reg r)) ∨
      (s.byteAt s.pc.toNat = 0x11#8 ∧ t.pc = zext9 (s.byteAt s.sp.toNat)))

/-! ## Instructions -/

/-- R90. -/
def Obligations.HltAdvancesThenHalts : Prop :=
  (∀ s : State, ∃ t, exec .hlt s = .next t ∧ t.run = .halted ∧ t.haltCause = .halt ∧
    t.pc = s.pc + 1#9 ∧ t.faultPc = s.faultPc ∧ t.faultInfo = s.faultInfo ∧
    KeepsRegsBut [] s t ∧ KeepsMemory s t ∧ KeepsOutput s t) ∧
  FetchedAlone 0x01#8 .hlt

/-- R100. -/
def Obligations.LdiLoadsImmediate : Prop :=
  (∀ (a imm : Byte) (r : Reg) (s : State), a.toNat = r.val →
    ∃ t, exec (.ldi a imm) s = .next t ∧ t.reg r = imm ∧ t.pc = s.pc + 3#9 ∧
      KeepsRegsBut [r] s t ∧ KeepsMemory s t ∧ KeepsOutput s t ∧ KeepsStatus s t) ∧
  (∀ (a imm : Byte) (s : State), 8 ≤ a.toNat → ExecHalts (.ldi a imm) .badRegister (zext9 a) s) ∧
  FetchedAs 0x82#8 2 .ldi

/-- R101. -/
def Obligations.PrnEmitsRegister : Prop :=
  (∀ (a : Byte) (r : Reg) (s : State), a.toNat = r.val →
    ∃ t, exec (.prn a) s = .next t ∧ t.out = s.out ++ [s.reg r] ∧ t.pc = s.pc + 2#9 ∧
      KeepsRegsBut [] s t ∧ KeepsMemory s t ∧ KeepsStatus s t) ∧
  (∀ (a : Byte) (s : State), 8 ≤ a.toNat → ExecHalts (.prn a) .badRegister (zext9 a) s) ∧
  FetchedAs 0x47#8 1 (fun a _ => .prn a)

/-- R111. -/
def Obligations.MulMultipliesModulo256 : Prop :=
  (∀ (a b : Byte) (ra rb : Reg) (s : State), a.toNat = ra.val → b.toNat = rb.val →
    ∃ t, exec (.mul a b) s = .next t ∧
      (t.reg ra).toNat = ((s.reg ra).toNat * (s.reg rb).toNat) % 256 ∧ t.pc = s.pc + 3#9 ∧
      KeepsRegsBut [ra] s t ∧ KeepsMemory s t ∧ KeepsOutput s t ∧ KeepsStatus s t) ∧
  (∀ (a b : Byte) (s : State), 8 ≤ a.toNat → ExecHalts (.mul a b) .badRegister (zext9 a) s) ∧
  (∀ (a b : Byte) (s : State), a.toNat < 8 → 8 ≤ b.toNat → ExecHalts (.mul a b) .badRegister (zext9 b) s) ∧
  FetchedAs 0xA2#8 2 .mul

/-- R112. -/
def Obligations.AddAddsModulo256 : Prop :=
  (∀ (a b : Byte) (ra rb : Reg) (s : State), a.toNat = ra.val → b.toNat = rb.val →
    ∃ t, exec (.add a b) s = .next t ∧
      (t.reg ra).toNat = ((s.reg ra).toNat + (s.reg rb).toNat) % 256 ∧ t.pc = s.pc + 3#9 ∧
      KeepsRegsBut [ra] s t ∧ KeepsMemory s t ∧ KeepsOutput s t ∧ KeepsStatus s t) ∧
  (∀ (a b : Byte) (s : State), 8 ≤ a.toNat → ExecHalts (.add a b) .badRegister (zext9 a) s) ∧
  (∀ (a b : Byte) (s : State), a.toNat < 8 → 8 ≤ b.toNat → ExecHalts (.add a b) .badRegister (zext9 b) s) ∧
  FetchedAs 0xA0#8 2 .add

/-- R121: the byte stored at the decremented `sp` is `x[A]` read after that decrement, so PUSH R7 stores the decremented `sp`.
The read of the stored byte needs the memory's canonical form, which every step keeps. -/
def Obligations.PushStoresRegister : Prop :=
  (∀ (a : Byte) (r : Reg) (s : State), s.mem.wf → a.toNat = r.val →
    ∃ t, exec (.push a) s = .next t ∧ t.sp = s.sp - 1#8 ∧
      t.byteAt (s.sp - 1#8).toNat = (if r = 7 then s.sp - 1#8 else s.reg r) ∧ t.pc = s.pc + 2#9 ∧
      KeepsRegsBut [7] s t ∧ KeepsMemoryBut (s.sp - 1#8) s t ∧ KeepsOutput s t ∧ KeepsStatus s t) ∧
  (∀ (a : Byte) (s : State), 8 ≤ a.toNat → ExecHalts (.push a) .badRegister (zext9 a) s) ∧
  FetchedAs 0x45#8 1 (fun a _ => .push a)

/-- R122: for POP R7 the popped byte is written first and then incremented as the stack pointer. -/
def Obligations.PopLoadsRegister : Prop :=
  (∀ (a : Byte) (r : Reg) (s : State), a.toNat = r.val →
    ∃ t, exec (.pop a) s = .next t ∧
      (r ≠ 7 → t.reg r = s.byteAt s.sp.toNat ∧ t.sp = s.sp + 1#8) ∧
      (r = 7 → t.sp = s.byteAt s.sp.toNat + 1#8) ∧ t.pc = s.pc + 2#9 ∧
      KeepsRegsBut [r, 7] s t ∧ KeepsMemory s t ∧ KeepsOutput s t ∧ KeepsStatus s t) ∧
  (∀ (a : Byte) (s : State), 8 ≤ a.toNat → ExecHalts (.pop a) .badRegister (zext9 a) s) ∧
  FetchedAs 0x46#8 1 (fun a _ => .pop a)

/-- R123, R144: where the return address is 256 the fault precedes every write; else the return address is stored at the decremented
`sp` and the target is `x[A]` read after that decrement. -/
def Obligations.CallPushesReturnAddressAndJumps : Prop :=
  (∀ (a : Byte) (r : Reg) (s : State), s.mem.wf → a.toNat = r.val → s.pc.toNat + 2 < 256 →
    ∃ t, exec (.call a) s = .next t ∧ t.sp = s.sp - 1#8 ∧
      (t.byteAt (s.sp - 1#8).toNat).toNat = s.pc.toNat + 2 ∧
      t.pc = zext9 (if r = 7 then s.sp - 1#8 else s.reg r) ∧
      KeepsRegsBut [7] s t ∧ KeepsMemoryBut (s.sp - 1#8) s t ∧ KeepsOutput s t ∧ KeepsStatus s t) ∧
  (∀ (a : Byte) (s : State), a.toNat < 8 → s.pc = 254#9 → ExecHalts (.call a) .retaddrRange 256#9 s) ∧
  (∀ (a : Byte) (s : State), 8 ≤ a.toNat → ExecHalts (.call a) .badRegister (zext9 a) s) ∧
  FetchedAs 0x50#8 1 (fun a _ => .call a)

/-- R124. -/
def Obligations.RetPopsPc : Prop :=
  (∀ s : State, ∃ t, exec .ret s = .next t ∧ t.pc = zext9 (s.byteAt s.sp.toNat) ∧ t.sp = s.sp + 1#8 ∧
    KeepsRegsBut [7] s t ∧ KeepsMemory s t ∧ KeepsOutput s t ∧ KeepsStatus s t) ∧
  FetchedAlone 0x11#8 .ret

/-! ## Laws of instruction pairs -/

/-- The document's law: LDI(r, v) then PRN(r) outputs exactly v, for every register (95_test_vectors.md E3). -/
def Obligations.LdiThenPrnOutputsValue : Prop :=
  ∀ (a imm : Byte) (s : State), a.toNat < 8 →
    ∃ t u, exec (.ldi a imm) s = .next t ∧ exec (.prn a) t = .next u ∧ u.out = s.out ++ [imm]

/-- R127: the round trip for registers other than R7, and what R7 on either side gives instead. -/
def Obligations.PushPopRoundTrip : Prop :=
  ∀ (a a2 : Byte) (r r2 : Reg) (s : State), s.mem.wf → a.toNat = r.val → a2.toNat = r2.val →
    ∃ t u, exec (.push a) s = .next t ∧ exec (.pop a2) t = .next u ∧
      (r ≠ 7 → r2 ≠ 7 → u.reg r2 = s.reg r ∧ u.sp = s.sp) ∧
      (r = 7 → r2 ≠ 7 → u.reg r2 = s.sp - 1#8 ∧ u.reg r2 ≠ s.sp) ∧
      (r ≠ 7 → r2 = 7 → u.sp = s.reg r + 1#8) ∧
      (r = 7 → r2 = 7 → u.sp = s.sp)

/-- R126: a RET from any later state in which `sp` and the return-address byte are as the CALL left them continues at the CALL's
address plus 2 with the caller's `sp`, whatever ran in between. -/
def Obligations.RetReturnsAfterCall : Prop :=
  ∀ (a : Byte) (s t u : State), s.mem.wf → a.toNat < 8 → s.pc.toNat + 2 < 256 →
    exec (.call a) s = .next t → u.sp = t.sp → u.byteAt t.sp.toNat = t.byteAt t.sp.toNat →
    ∃ v, exec .ret u = .next v ∧ v.pc.toNat = s.pc.toNat + 2 ∧ v.sp = s.sp

/-! ## Faults (60_exceptions.md) -/

/-- R143: every way a fetch runs past the top of memory, with the address it records. -/
def Obligations.FetchPastMemoryHalts : Prop :=
  ∀ s : State, s.run = .running →
    (256 ≤ s.pc.toNat → StepHalts .fetchRange s.pc s) ∧
    (s.pc.toNat = 255 → s.byteAt 255 ∈ [0x82#8, 0xA2#8, 0xA0#8, 0x47#8, 0x45#8, 0x46#8, 0x50#8] →
      StepHalts .fetchRange 256#9 s) ∧
    (s.pc.toNat = 254 → s.byteAt 254 ∈ [0x82#8, 0xA2#8, 0xA0#8] → StepHalts .fetchRange 256#9 s)

/-- R84, R142: a register operand byte of 8 or more, operand A's where both are, halts the machine before the instruction writes
anything, and no other byte does: LDI's immediate is not checked. -/
def Obligations.BadRegisterOperandHalts : Prop :=
  ∀ (s : State) (i : Instr) (rest : List Byte), s.run = .running → decode s.fetchWindow = .ok (i, rest) →
    (∀ b, firstBadRegister i = some b → StepHalts .badRegister (zext9 b) s) ∧
    (firstBadRegister i = none → ∀ t info, step s = .next t → ¬ HaltsWith .badRegister info s t)

/-- R113 and R145: an operation the ALU does not support is recorded as INTERNAL, and no step comes to it. That the operation
is named by the opcode byte, which is then the byte recorded, is the model's choice: log entry 8 (DEDUCED). -/
def Obligations.InternalFaultIsUnreachable : Prop :=
  (∀ (op : Byte) (ra rb : Reg) (s : State), op ≠ 0xA2#8 → op ≠ 0xA0#8 →
    ∃ t, aluApply op ra rb s = .next t ∧ HaltsWith .internal (zext9 op) s t) ∧
  (∀ s t : State, step s = .next t → s.haltCause ≠ .fault .internal → t.haltCause ≠ .fault .internal)

/-- R148: a step takes exactly the first fault of the priority list, and where no check of the list fails it takes none. -/
def Obligations.StepTakesFirstFaultOfPriorityList : Prop :=
  ∀ s : State, s.run = .running →
    (∀ c info, firstFault s = some (c, info) → StepHalts c info s) ∧
    (firstFault s = none → ∃ t, step s = .next t ∧ ∀ c info, ¬ HaltsWith c info s t)

/-- R146: a step that halts the machine is HLT or a fault, and a fault leaves the state exactly as before the step but for the
halt record. -/
def Obligations.HaltingStepIsHltOrPreciseFault : Prop :=
  ∀ s t : State, step s = .next t → t.run = .halted →
    (s.byteAt s.pc.toNat = 0x01#8 ∧ t.haltCause = .halt ∧ t.faultPc = s.faultPc ∧ t.faultInfo = s.faultInfo ∧
      KeepsRegsBut [] s t ∧ KeepsMemory s t ∧ KeepsOutput s t) ∨
    (∃ c info, HaltsWith c info s t)

/-- The codes of R140's table, as the 3-bit status output gives them. -/
def Obligations.HaltCauseCodes : Prop :=
  [HaltCause.none, .halt, .fault .unknownOpcode, .fault .badRegister, .fault .fetchRange, .fault .retaddrRange,
    .fault .internal].map HaltCause.code = [0#3, 1#3, 2#3, 3#3, 4#3, 5#3, 6#3] ∧
  ∀ c : HaltCause, c.code ≠ 7#3

/-! ## The whole machine -/

/-- Whichever instruction runs, a register changes only where the table of 10_state.md R23 has it written. -/
def Obligations.RegistersChangeOnlyWhereWritten : Prop :=
  ∀ (s t : State) (r : Reg), step s = .next t → t.reg r ≠ s.reg r →
    (s.byteAt s.pc.toNat ∈ [0x82#8, 0xA2#8, 0xA0#8, 0x46#8] ∧ (s.byteAt (s.pc.toNat + 1)).toNat = r.val) ∨
    (s.byteAt s.pc.toNat ∈ [0x45#8, 0x46#8, 0x50#8, 0x11#8] ∧ r = 7)

/-- Whichever instruction runs, the only cell that changes is the one below `sp`, and only PUSH and CALL change it. -/
def Obligations.MemoryChangesOnlyByPushAndCall : Prop :=
  ∀ (s t : State) (x : Nat), step s = .next t → t.byteAt x ≠ s.byteAt x →
    s.byteAt s.pc.toNat ∈ [0x45#8, 0x50#8] ∧ x = (s.sp - 1#8).toNat

/-- Whichever instruction runs, console output is only appended to, by one byte, and only by PRN. -/
def Obligations.OutputGrowsOnlyByPrn : Prop :=
  ∀ s t : State, step s = .next t →
    t.out = s.out ∨
    (s.byteAt s.pc.toNat = 0x47#8 ∧
      ∃ r : Reg, (s.byteAt (s.pc.toNat + 1)).toNat = r.val ∧ t.out = s.out ++ [s.reg r])

/-- R174: a byte that PUSH or CALL stores into the bytes of the next instruction, opcode or operand, is what that instruction's
fetch reads. -/
def Obligations.NextFetchSeesStoredByte : Prop :=
  ∀ (a : Byte) (r : Reg) (s t : State) (k : Nat), s.mem.wf → a.toNat = r.val → k < 3 →
    t.pc.toNat + k = (s.sp - 1#8).toNat →
    (exec (.push a) s = .next t →
      t.fetchWindow[k]? = some (if r = 7 then s.sp - 1#8 else s.reg r)) ∧
    (s.pc.toNat + 2 < 256 → exec (.call a) s = .next t →
      t.fetchWindow[k]? = some (low8 (s.pc + 2#9)))

/-- A step depends on no cell but those it reads (20_memory.md R42): its opcode byte, the operand bytes the opcode declares, and
for POP and RET the top of the stack. A cell outside them may hold anything. -/
def Obligations.StepReadsOnlyItsOwnCells : Prop :=
  ∀ (s s' t : State) (x : Nat), s.mem.wf → s'.mem.wf → s' = { s with mem := s'.mem } →
    (∀ y, y ≠ x → s'.byteAt y = s.byteAt y) →
    (∀ k, k ≤ opCount (s.byteAt s.pc.toNat) → x ≠ s.pc.toNat + k) →
    (s.byteAt s.pc.toNat ∈ [0x46#8, 0x11#8] → x ≠ s.sp.toNat) →
    step s = .next t →
    ∃ t', step s' = .next t' ∧ t' = { t with mem := t'.mem } ∧ ∀ y, y ≠ x → t'.byteAt y = t.byteAt y

/-- Canonical memories that read alike are equal data. -/
def Obligations.CanonicalMemoryIsDeterminedByReads : Prop :=
  ∀ m m' : Memory, m.wf → m'.wf → (∀ x, x < 256 → m.get x = m'.get x) → m = m'

/-! ## Reset and invariant -/

/-- R170: the machine constructed from an image, for every value of the two OPEN parameters; a longer image constructs none. -/
def Obligations.ConstructGivesResetState : Prop :=
  ∀ (initRegs : Fin 7 → Byte) (initMem : Nat → Byte) (image : List Byte),
    (image.length ≤ 256 → ∃ s, State.construct initRegs initMem image = some s ∧
      (∀ x (h : x < image.length), s.byteAt x = image[x]) ∧
      (∀ x, image.length ≤ x → x < 256 → s.byteAt x = initMem x) ∧
      (∀ (n : Fin 7) (r : Reg), r.val = n.val → s.reg r = initRegs n) ∧ s.sp = 244#8 ∧
      s.pc = 0#9 ∧ s.run = .running ∧ s.haltCause = .none ∧ s.faultPc = 0#9 ∧ s.faultInfo = 0#9 ∧ s.out = []) ∧
    (256 < image.length → State.construct initRegs initMem image = none)

/-- The model's `State.reset` is the machine constructed from no image, with the zeros of log entries 2 and 3 (the model's
choice), and it meets the invariant. -/
def Obligations.ResetMeetsInvariant : Prop :=
  State.construct (fun _ => 0#8) (fun _ => 0#8) [] = some State.reset ∧ State.reset.Inv

/-- Every step, from every state that meets the invariant, keeps it: the memory list stays canonical, `pc` stays in 0 to 256 and
the halt record stays one of those of 60_exceptions.md R140, INTERNAL excluded. -/
def Obligations.StepKeepsInvariant : Prop :=
  ∀ s t : State, s.Inv → step s = .next t → t.Inv

/-- From any image and any contents of what the spec leaves open, every state the machine comes to meets the invariant, and
either it runs and has a next state, or it has ended, cleanly or in error, and has no step. -/
def Obligations.ReachableStatesRunOrHaveEnded : Prop :=
  ∀ s : State, Reachable s → s.Inv ∧
    ((s.run = .running ∧ ∃ t, step s = .next t) ∨
     ((s.endedCleanly ∨ s.endedInError) ∧ step s = .fault .halted))

/-! ## The loader's text (30_encoding.md R72) -/

/-- A line that begins with an 8-character literal gives its byte whatever comment follows, and a comment line gives none. -/
def Obligations.ImageLineGivesItsByte : Prop :=
  ∀ (b : Byte) (comment : List Char),
    lineByte (binDigits b) = some b ∧
    lineByte (binDigits b ++ ' ' :: '#' :: comment) = some b ∧
    lineByte ('#' :: comment) = none ∧ lineByte [] = none
end

