-- ==== Sys2Proof/Laws/Decode.lean ====
section
/-! SUPPORT. The opcode map as a lookup: what each row answers, and that a byte selects at most one row. -/

namespace Sys2Proof

@[simp] theorem Opcode.ofByte_byte (o : Opcode) : Opcode.ofByte o.byte = some o := by cases o <;> decide

theorem Opcode.byte_of_ofByte {op : Byte} {o : Opcode} (h : Opcode.ofByte op = some o) : o.byte = op := by
  simpa using List.find?_some h

theorem Opcode.ofByte_eq_some {op : Byte} {o : Opcode} : Opcode.ofByte op = some o ↔ op = o.byte :=
  ⟨fun h => (Opcode.byte_of_ofByte h).symm, fun h => h ▸ Opcode.ofByte_byte o⟩

/-- No two rows share a byte (30_encoding.md R69). -/
theorem Opcode.byte_injective {o o' : Opcode} (h : o.byte = o'.byte) : o = o' := by
  simpa using (Opcode.ofByte_byte o).symm.trans ((congrArg Opcode.ofByte h).trans (Opcode.ofByte_byte o'))

theorem Opcode.ofByte_eq_none {op : Byte} : Opcode.ofByte op = none ↔ ∀ o : Opcode, op ≠ o.byte := by
  rw [Option.eq_none_iff_forall_ne_some]
  exact forall_congr' fun o => not_congr Opcode.ofByte_eq_some

/-- The operand counts of the rows (30_encoding.md R69). -/
theorem Opcode.count_byte (o : Opcode) :
    opCount o.byte = match o with
      | .hlt | .ret => 0
      | .prn | .push | .pop | .call => 1
      | .ldi | .mul | .add => 2 := by cases o <;> decide

/-- The sets-PC flag is set exactly for CALL and RET (30_encoding.md R69). -/
theorem Opcode.setsPc_byte (o : Opcode) : opSetsPc o.byte = (o == .call || o == .ret) := by cases o <;> decide

theorem opCount_eq_div (op : Byte) : opCount op = op.toNat / 64 := by
  simp [opCount, BitVec.toNat_ushiftRight, Nat.shiftRight_eq_div_pow]

theorem decode_nil : decode [] = .error (.missingByte 0) := rfl

theorem decode_cons_unknown {op : Byte} (h : Opcode.ofByte op = none) (bs : List Byte) :
    decode (op :: bs) = .error (.unknownOpcode op) := by simp [decode, h]

theorem decode_cons_row (o : Opcode) (bs : List Byte) : decode (o.byte :: bs) = decodeOperands o bs := by
  simp [decode]

theorem validReg_iff {b : Byte} : validReg b = true ↔ b.toNat < 8 := by simp [validReg]

end Sys2Proof
end

