-- ==== Sys2Proof/Laws/Memory.lean ====
section
/-! SUPPORT. The two laws of memory, and that every memory operation keeps the canonical form. -/

namespace Sys2Proof.Machine

theorem Memory.wf_nil : Memory.wf [] := ⟨List.Pairwise.nil, by simp⟩

theorem Memory.wf_cons {c : Host.Cell} {m : Memory} :
    Memory.wf (c :: m) ↔
      (∀ d ∈ m, c.1 < d.1) ∧ (c.1 < Config.memSize ∧ c.2 ≠ Config.unlistedByte) ∧ Memory.wf m := by
  simp only [Memory.wf, List.pairwise_cons, List.forall_mem_cons]
  tauto

/-- A cell below every listed address reads as an unlisted one. -/
theorem Memory.get_of_lt {m : Memory} {a : Nat} (h : ∀ d ∈ m, a < d.1) : m.get a = Config.unlistedByte := by
  induction m with
  | nil => rfl
  | cons c m ih =>
    have hc := h c (by simp)
    simp only [Memory.get, if_neg hc.ne]
    exact ih fun d hd => h d (by simp [hd])

theorem Memory.get_entry_append (a : Nat) (v : Byte) (m : Memory) (x : Nat) :
    Memory.get (Memory.entry a v ++ m) x =
      if x = a then (if v = Config.unlistedByte then m.get x else v) else m.get x := by
  unfold Memory.entry
  by_cases hv : v = Config.unlistedByte <;> simp [hv, Memory.get]

/-- A write leaves every other cell alone. -/
theorem Memory.get_put_of_ne (m : Memory) {a x : Nat} (v : Byte) (h : x ≠ a) : (m.put a v).get x = m.get x := by
  induction m with
  | nil => simpa [h, Memory.put] using Memory.get_entry_append a v [] x
  | cons c m ih =>
    obtain ⟨b, w⟩ := c
    simp only [Memory.put]
    split
    · simp [Memory.get_entry_append, h]
    · split
      · subst a; simp [Memory.get_entry_append, h, Memory.get]
      · simp [Memory.get, ih]

/-- A read after a write to the same cell gives the value written. -/
theorem Memory.get_put_self {m : Memory} (hm : m.wf) (a : Nat) (v : Byte) : (m.put a v).get a = v := by
  induction m with
  | nil =>
    have := Memory.get_entry_append a v [] a
    simp only [List.append_nil, if_true] at this
    rw [Memory.put, this]
    split <;> simp_all [Memory.get]
  | cons c m ih =>
    obtain ⟨b, w⟩ := c
    obtain ⟨hlt, -, hm'⟩ := Memory.wf_cons.1 hm
    simp only [Memory.put]
    split
    next hab =>
      have : Memory.get ((b, w) :: m) a = Config.unlistedByte :=
        Memory.get_of_lt (by simpa using ⟨hab, fun c d hd => lt_trans hab (hlt (c, d) hd)⟩)
      rw [Memory.get_entry_append]
      split <;> simp_all
    next hab =>
      split
      next heq =>
        subst heq
        rw [Memory.get_entry_append, Memory.get_of_lt hlt]
        split <;> simp_all
      next hne => simpa [Memory.get, hne] using ih hm'

theorem Memory.lt_of_mem_put {m : Memory} {a : Nat} {v : Byte} {b : Nat} (hb : b < a) (h : ∀ d ∈ m, b < d.1) :
    ∀ d ∈ m.put a v, b < d.1 := by
  have hentry : ∀ d ∈ Memory.entry a v, b < d.1 := by
    unfold Memory.entry; split <;> simp [hb]
  induction m with
  | nil => exact hentry
  | cons c m ih =>
    have hm := fun d (hd : d ∈ m) => h d (by simp [hd])
    have hc := h c (by simp)
    obtain ⟨e, w⟩ := c
    intro d hd
    simp only [Memory.put] at hd
    split at hd
    · rcases List.mem_append.1 hd with hd | hd
      exacts [hentry d hd, h d hd]
    · split at hd
      · rcases List.mem_append.1 hd with hd | hd
        exacts [hentry d hd, hm d hd]
      · rcases List.mem_cons.1 hd with rfl | hd
        exacts [hc, ih hm d hd]

theorem Memory.wf_entry_append {a : Nat} (ha : a < Config.memSize) (v : Byte) {m : Memory} (hm : m.wf)
    (h : ∀ d ∈ m, a < d.1) : Memory.wf (Memory.entry a v ++ m) := by
  unfold Memory.entry
  split
  · simpa using hm
  next hv => exact Memory.wf_cons.2 ⟨h, ⟨ha, hv⟩, hm⟩

/-- A write inside memory keeps the canonical form. -/
theorem Memory.wf_put {m : Memory} (hm : m.wf) {a : Nat} (ha : a < Config.memSize) (v : Byte) : (m.put a v).wf := by
  induction m with
  | nil => simpa [Memory.put] using Memory.wf_entry_append ha v Memory.wf_nil (by simp)
  | cons c m ih =>
    obtain ⟨b, w⟩ := c
    obtain ⟨hlt, hw, hm'⟩ := Memory.wf_cons.1 hm
    simp only [Memory.put]
    split
    next hab =>
      exact Memory.wf_entry_append ha v hm (by simpa using ⟨hab, fun c d hd => lt_trans hab (hlt (c, d) hd)⟩)
    next hab =>
      split
      next heq => subst heq; exact Memory.wf_entry_append ha v hm' hlt
      next hne => exact Memory.wf_cons.2 ⟨Memory.lt_of_mem_put (by dsimp; omega) hlt, hw, ih hm'⟩

theorem Memory.read?_of_lt (m : Memory) {a : Nat} (h : a < Config.memSize) : m.read? a = some (m.get a) := by
  simp [Memory.read?, h]

theorem Memory.read?_of_ge (m : Memory) {a : Nat} (h : Config.memSize ≤ a) : m.read? a = none := by
  simp [Memory.read?, Nat.not_lt.2 h]

end Sys2Proof.Machine
end

