-- ==== Sys2Proof/Laws/State.lean ====
section
/-! SUPPORT. One lemma per field per update of the state, so that no later proof unfolds a record update. -/

namespace Sys2Proof.Machine

variable (s : State) (r : Reg) (v a : Byte) (w : Word9)

@[simp] theorem State.setReg_mem : (s.setReg r v).mem = s.mem := rfl
@[simp] theorem State.setReg_pc : (s.setReg r v).pc = s.pc := rfl
@[simp] theorem State.setReg_run : (s.setReg r v).run = s.run := rfl
@[simp] theorem State.setReg_haltCause : (s.setReg r v).haltCause = s.haltCause := rfl
@[simp] theorem State.setReg_faultPc : (s.setReg r v).faultPc = s.faultPc := rfl
@[simp] theorem State.setReg_faultInfo : (s.setReg r v).faultInfo = s.faultInfo := rfl
@[simp] theorem State.setReg_out : (s.setReg r v).out = s.out := rfl

@[simp] theorem State.setPc_mem : (s.setPc w).mem = s.mem := rfl
@[simp] theorem State.setPc_regs : (s.setPc w).regs = s.regs := rfl
@[simp] theorem State.setPc_pc : (s.setPc w).pc = w := rfl
@[simp] theorem State.setPc_run : (s.setPc w).run = s.run := rfl
@[simp] theorem State.setPc_haltCause : (s.setPc w).haltCause = s.haltCause := rfl
@[simp] theorem State.setPc_faultPc : (s.setPc w).faultPc = s.faultPc := rfl
@[simp] theorem State.setPc_faultInfo : (s.setPc w).faultInfo = s.faultInfo := rfl
@[simp] theorem State.setPc_out : (s.setPc w).out = s.out := rfl

@[simp] theorem State.store_mem : (s.store a v).mem = s.mem.put a.toNat v := rfl
@[simp] theorem State.store_regs : (s.store a v).regs = s.regs := rfl
@[simp] theorem State.store_pc : (s.store a v).pc = s.pc := rfl
@[simp] theorem State.store_run : (s.store a v).run = s.run := rfl
@[simp] theorem State.store_haltCause : (s.store a v).haltCause = s.haltCause := rfl
@[simp] theorem State.store_faultPc : (s.store a v).faultPc = s.faultPc := rfl
@[simp] theorem State.store_faultInfo : (s.store a v).faultInfo = s.faultInfo := rfl
@[simp] theorem State.store_out : (s.store a v).out = s.out := rfl

@[simp] theorem State.emit_mem : (s.emit v).mem = s.mem := rfl
@[simp] theorem State.emit_regs : (s.emit v).regs = s.regs := rfl
@[simp] theorem State.emit_pc : (s.emit v).pc = s.pc := rfl
@[simp] theorem State.emit_run : (s.emit v).run = s.run := rfl
@[simp] theorem State.emit_haltCause : (s.emit v).haltCause = s.haltCause := rfl
@[simp] theorem State.emit_faultPc : (s.emit v).faultPc = s.faultPc := rfl
@[simp] theorem State.emit_faultInfo : (s.emit v).faultInfo = s.faultInfo := rfl
@[simp] theorem State.emit_out : (s.emit v).out = s.out ++ [v] := rfl

@[simp] theorem State.halt_mem (c : HaltCause) : (s.halt c).mem = s.mem := rfl
@[simp] theorem State.halt_regs (c : HaltCause) : (s.halt c).regs = s.regs := rfl
@[simp] theorem State.halt_pc (c : HaltCause) : (s.halt c).pc = s.pc := rfl
@[simp] theorem State.halt_run (c : HaltCause) : (s.halt c).run = .halted := rfl
@[simp] theorem State.halt_haltCause (c : HaltCause) : (s.halt c).haltCause = c := rfl
@[simp] theorem State.halt_faultPc (c : HaltCause) : (s.halt c).faultPc = s.faultPc := rfl
@[simp] theorem State.halt_faultInfo (c : HaltCause) : (s.halt c).faultInfo = s.faultInfo := rfl
@[simp] theorem State.halt_out (c : HaltCause) : (s.halt c).out = s.out := rfl

@[simp] theorem State.takeFault_mem (c : FaultCause) : (s.takeFault c w).mem = s.mem := rfl
@[simp] theorem State.takeFault_regs (c : FaultCause) : (s.takeFault c w).regs = s.regs := rfl
@[simp] theorem State.takeFault_pc (c : FaultCause) : (s.takeFault c w).pc = s.pc := rfl
@[simp] theorem State.takeFault_run (c : FaultCause) : (s.takeFault c w).run = .halted := rfl
@[simp] theorem State.takeFault_haltCause (c : FaultCause) : (s.takeFault c w).haltCause = .fault c := rfl
@[simp] theorem State.takeFault_faultPc (c : FaultCause) : (s.takeFault c w).faultPc = s.pc := rfl
@[simp] theorem State.takeFault_faultInfo (c : FaultCause) : (s.takeFault c w).faultInfo = w := rfl
@[simp] theorem State.takeFault_out (c : FaultCause) : (s.takeFault c w).out = s.out := rfl

/-! `advance` writes `pc` and nothing else. -/

theorem State.advance_eq (op : Byte) :
    s.advance op w = s.setPc (if opSetsPc op then s.pc else w + BitVec.ofNat 9 (opLength op)) := by
  unfold State.advance; split <;> rfl

@[simp] theorem State.advance_mem (op : Byte) : (s.advance op w).mem = s.mem := by rw [advance_eq]; rfl
@[simp] theorem State.advance_regs (op : Byte) : (s.advance op w).regs = s.regs := by rw [advance_eq]; rfl
@[simp] theorem State.advance_run (op : Byte) : (s.advance op w).run = s.run := by rw [advance_eq]; rfl
@[simp] theorem State.advance_haltCause (op : Byte) : (s.advance op w).haltCause = s.haltCause := by
  rw [advance_eq]; rfl
@[simp] theorem State.advance_faultPc (op : Byte) : (s.advance op w).faultPc = s.faultPc := by rw [advance_eq]; rfl
@[simp] theorem State.advance_faultInfo (op : Byte) : (s.advance op w).faultInfo = s.faultInfo := by
  rw [advance_eq]; rfl
@[simp] theorem State.advance_out (op : Byte) : (s.advance op w).out = s.out := by rw [advance_eq]; rfl
@[simp] theorem State.advance_pc (op : Byte) :
    (s.advance op w).pc = if opSetsPc op then s.pc else w + BitVec.ofNat 9 (opLength op) := by rw [advance_eq]; rfl

end Sys2Proof.Machine
end

