-- ==== Sys2Proof/Laws/Ops.lean ====
section
/-! SUPPORT. One lemma per shared operation that says everything it can do; later proofs cite these and unfold none of them. -/

namespace Sys2Proof.Machine

/-! ## Registers -/

@[simp] theorem State.reg_setReg_self (s : State) (r : Reg) (v : Byte) : (s.setReg r v).reg r = v := by
  simp [State.reg, State.setReg, Vector.get_eq_getElem]

theorem State.reg_setReg_of_ne (s : State) {q r : Reg} (h : q ≠ r) (v : Byte) : (s.setReg r v).reg q = s.reg q := by
  have : r.val ≠ q.val := fun e => h (Fin.ext e.symm)
  simp [State.reg, State.setReg, Vector.get_eq_getElem, this]

theorem State.reg_setReg (s : State) (q r : Reg) (v : Byte) : (s.setReg r v).reg q = if q = r then v else s.reg q := by
  split
  next h => subst h; simp
  next h => exact State.reg_setReg_of_ne s h v

@[simp] theorem State.reg_setPc (s : State) (w : Word9) (r : Reg) : (s.setPc w).reg r = s.reg r := rfl
@[simp] theorem State.reg_store (s : State) (a v : Byte) (r : Reg) : (s.store a v).reg r = s.reg r := rfl
@[simp] theorem State.reg_emit (s : State) (v : Byte) (r : Reg) : (s.emit v).reg r = s.reg r := rfl
@[simp] theorem State.reg_halt (s : State) (c : HaltCause) (r : Reg) : (s.halt c).reg r = s.reg r := rfl
@[simp] theorem State.reg_takeFault (s : State) (c : FaultCause) (w : Word9) (r : Reg) :
    (s.takeFault c w).reg r = s.reg r := rfl
@[simp] theorem State.reg_advance (s : State) (op : Byte) (w : Word9) (r : Reg) :
    (s.advance op w).reg r = s.reg r := by rw [State.advance_eq]; rfl

/-! ## Memory -/

@[simp] theorem State.byteAt_setReg (s : State) (r : Reg) (v : Byte) (x : Nat) :
    (s.setReg r v).byteAt x = s.byteAt x := rfl
@[simp] theorem State.byteAt_setPc (s : State) (w : Word9) (x : Nat) : (s.setPc w).byteAt x = s.byteAt x := rfl
@[simp] theorem State.byteAt_emit (s : State) (v : Byte) (x : Nat) : (s.emit v).byteAt x = s.byteAt x := rfl
@[simp] theorem State.byteAt_halt (s : State) (c : HaltCause) (x : Nat) : (s.halt c).byteAt x = s.byteAt x := rfl
@[simp] theorem State.byteAt_takeFault (s : State) (c : FaultCause) (w : Word9) (x : Nat) :
    (s.takeFault c w).byteAt x = s.byteAt x := rfl
@[simp] theorem State.byteAt_advance (s : State) (op : Byte) (w : Word9) (x : Nat) :
    (s.advance op w).byteAt x = s.byteAt x := by rw [State.advance_eq]; rfl

theorem State.byteAt_store_self {s : State} (h : s.mem.wf) (a v : Byte) : (s.store a v).byteAt a.toNat = v :=
  Memory.get_put_self h _ _

theorem State.byteAt_store_of_ne (s : State) (a v : Byte) {x : Nat} (h : x ≠ a.toNat) :
    (s.store a v).byteAt x = s.byteAt x := Memory.get_put_of_ne _ _ h

theorem State.wf_store {s : State} (h : s.mem.wf) (a v : Byte) : (s.store a v).mem.wf := Memory.wf_put h a.isLt v

/-! ## Stack -/

@[simp] theorem State.regs_decSp (s : State) (q : Reg) : s.decSp.reg q = if q = 7 then s.sp - 1#8 else s.reg q :=
  State.reg_setReg s q _ _

@[simp] theorem State.regs_incSp (s : State) (q : Reg) : s.incSp.reg q = if q = 7 then s.sp + 1#8 else s.reg q :=
  State.reg_setReg s q _ _

@[simp] theorem State.byteAt_incSp (s : State) (x : Nat) : s.incSp.byteAt x = s.byteAt x := rfl

/-- A push moves `sp` and no other register. -/
theorem State.reg_pushByte (s : State) (v : State → Byte) (q : Reg) :
    (s.pushByte v).reg q = if q = 7 then s.sp - 1#8 else s.reg q := by
  simp [State.pushByte]

/-- A push stores, at the decremented `sp`, the byte it reads after the decrement. -/
theorem State.byteAt_pushByte_self {s : State} (h : s.mem.wf) (v : State → Byte) :
    (s.pushByte v).byteAt (s.sp - 1#8).toNat = v s.decSp := by
  have := State.byteAt_store_self (s := s.decSp) h s.decSp.sp (v s.decSp)
  simpa [State.pushByte] using this

theorem State.byteAt_pushByte_of_ne (s : State) (v : State → Byte) {x : Nat} (h : x ≠ (s.sp - 1#8).toNat) :
    (s.pushByte v).byteAt x = s.byteAt x := by
  have hx : x ≠ s.decSp.sp.toNat := by simpa using h
  exact State.byteAt_store_of_ne s.decSp s.decSp.sp (v s.decSp) hx

theorem State.wf_pushByte {s : State} (h : s.mem.wf) (v : State → Byte) : (s.pushByte v).mem.wf :=
  State.wf_store (s := s.decSp) h _ _

/-- A push writes registers and memory only. -/
theorem State.pushByte_other (s : State) (v : State → Byte) :
    (s.pushByte v).pc = s.pc ∧ (s.pushByte v).run = s.run ∧ (s.pushByte v).haltCause = s.haltCause ∧
    (s.pushByte v).faultPc = s.faultPc ∧ (s.pushByte v).faultInfo = s.faultInfo ∧ (s.pushByte v).out = s.out :=
  ⟨rfl, rfl, rfl, rfl, rfl, rfl⟩

/-! ## Widths -/

@[simp] theorem toNat_zext9 (v : Byte) : (zext9 v).toNat = v.toNat := by
  rw [zext9, BitVec.toNat_setWidth_of_le (by omega)]

/-! ## Operands -/

theorem withReg_of_eq {b : Byte} {r : Reg} (h : b.toNat = r.val) (s : State) (k : Reg → Result) :
    withReg b s k = k r := by
  have hb : b.toNat < Config.numRegs := h ▸ r.isLt
  have hr : (⟨b.toNat, hb⟩ : Reg) = r := Fin.ext h
  simp [withReg, regOperand, dif_pos hb, hr]

theorem withReg_of_ge {b : Byte} (h : 8 ≤ b.toNat) (s : State) (k : Reg → Result) :
    withReg b s k = .next (s.takeFault .badRegister (zext9 b)) := by
  simp [withReg, regOperand, Nat.not_lt.2 h]

/-- A register operand goes on with the register it names or takes BAD_REGISTER (40_sequencer.md R84). -/
theorem withReg_cases (b : Byte) (s : State) (k : Reg → Result) :
    (∃ r : Reg, b.toNat = r.val ∧ withReg b s k = k r) ∨
    (8 ≤ b.toNat ∧ withReg b s k = .next (s.takeFault .badRegister (zext9 b))) := by
  by_cases h : b.toNat < 8
  · exact .inl ⟨⟨b.toNat, h⟩, rfl, withReg_of_eq rfl s k⟩
  · exact .inr ⟨Nat.not_lt.1 h, withReg_of_ge (Nat.not_lt.1 h) s k⟩

/-! ## Faults -/

/-- Taking a fault is fault entry as 60_exceptions.md R146 gives it. -/
theorem haltsWith_takeFault (s : State) (c : FaultCause) (info : Word9) : HaltsWith c info s (s.takeFault c info) :=
  ⟨rfl, rfl, rfl, rfl, rfl, fun _ _ => rfl, fun _ => rfl, rfl⟩

/-! ## ALU -/

theorem aluApply_mul (ra rb : Reg) (s : State) :
    aluApply Opcode.mul.byte ra rb s =
      .next ((s.setReg ra (BitVec.ofNat 8 ((s.reg ra).toNat * (s.reg rb).toNat))).advance Opcode.mul.byte s.pc) := by
  simp [aluApply, aluResult]

theorem aluApply_add (ra rb : Reg) (s : State) :
    aluApply Opcode.add.byte ra rb s =
      .next ((s.setReg ra (BitVec.ofNat 8 ((s.reg ra).toNat + (s.reg rb).toNat))).advance Opcode.add.byte s.pc) := by
  have h : Opcode.add.byte ≠ Opcode.mul.byte := by decide
  simp [aluApply, aluResult, h]

/-! ## Fetch -/

theorem fetchWindow_of_pc_ge {s : State} (h : 256 ≤ s.pc.toNat) : s.fetchWindow = [] := by
  simp [State.fetchWindow, Memory.window, Memory.read?_of_ge s.mem h]

/-- The bytes of the window: the opcode, and after it the candidate bytes that lie inside memory (40_sequencer.md R81, R83). -/
theorem fetchWindow_of_pc_lt {s : State} (h : s.pc.toNat < 256) :
    s.fetchWindow = s.byteAt s.pc.toNat ::
      ((if s.pc.toNat + 1 < 256 then [s.byteAt (s.pc.toNat + 1)] else []) ++
       (if s.pc.toNat + 2 < 256 then [s.byteAt (s.pc.toNat + 2)] else [])) := by
  simp only [State.fetchWindow, Memory.window, Memory.read?_of_lt s.mem h, State.byteAt]
  by_cases h1 : s.pc.toNat + 1 < 256
  · by_cases h2 : s.pc.toNat + 2 < 256
    · simp [Memory.read?_of_lt s.mem h1, Memory.read?_of_lt s.mem h2, h1, h2]
    · simp [Memory.read?_of_lt s.mem h1, Memory.read?_of_ge s.mem (Nat.not_lt.1 h2), h1, h2]
  · have h2 : ¬ s.pc.toNat + 2 < 256 := by omega
    simp [Memory.read?_of_ge s.mem (Nat.not_lt.1 h1), h1, h2]

/-! ## Step -/

/-- Everything a step can do: run the decoded instruction, or take the fault of bytes that are no instruction. -/
theorem step_cases {s t : State} (h : step s = .next t) :
    s.run = .running ∧
      ((∃ i rest, decode s.fetchWindow = .ok (i, rest) ∧ exec i s = .next t) ∨
       (∃ e, decode s.fetchWindow = .error e ∧ t = s.takeDecodeFault e)) := by
  unfold step at h
  split at h
  · cases h
  next hrun =>
    refine ⟨hrun, ?_⟩
    split at h
    next i rest hd => exact .inl ⟨i, rest, hd, h⟩
    next e hd => exact .inr ⟨e, hd, (Host.Outcome.next.inj h).symm⟩

/-! ## Reset -/

/-- `Memory.boot` lists the cells of a range of addresses in canonical form. -/
theorem Memory.wf_flatMap_entry (f : Nat → Byte) (n k : Nat) (h : k + n ≤ Config.memSize) :
    Memory.wf ((List.range' k n).flatMap fun a => Memory.entry a (f a)) ∧
    ∀ d ∈ (List.range' k n).flatMap (fun a => Memory.entry a (f a)), k ≤ d.1 := by
  induction n generalizing k with
  | zero => exact ⟨Memory.wf_nil, by simp⟩
  | succ n ih =>
    obtain ⟨hwf, hge⟩ := ih (k + 1) (by omega)
    rw [List.range'_succ, List.flatMap_cons]
    refine ⟨Memory.wf_entry_append (by dsimp [Config.memSize] at *; omega) _ hwf fun d hd => hge d hd, fun d hd => ?_⟩
    rcases List.mem_append.1 hd with hd | hd
    · unfold Memory.entry at hd
      split at hd <;> simp_all
    · exact Nat.le_of_succ_le (hge d hd)

theorem Memory.wf_boot (initMem : Nat → Byte) (image : List Byte) : (Memory.boot initMem image).wf := by
  unfold Memory.boot
  rw [List.range_eq_range']
  exact (Memory.wf_flatMap_entry _ _ _ (by simp)).1

end Sys2Proof.Machine
end

