-- ==== Sys2Proof/Laws/PerInstr.lean ====
section
/-! SUPPORT. Statements about every instruction, one lemma per constructor. -/

namespace Sys2Proof.Laws.EncodedLength

/-- The encoding of an instruction begins with an opcode byte of the map and has exactly the length that byte gives
(30_encoding.md R62, R69). -/
def Statement (i : Instr) : Prop :=
  ∃ (o : Opcode) (operands : List Byte), encode i = o.byte :: operands ∧ (encode i).length = opLength o.byte

theorem hlt : Statement .hlt := ⟨.hlt, _, rfl, by decide⟩
theorem ldi (a imm : Byte) : Statement (.ldi a imm) := ⟨.ldi, _, rfl, rfl⟩
theorem prn (a : Byte) : Statement (.prn a) := ⟨.prn, _, rfl, rfl⟩
theorem mul (a b : Byte) : Statement (.mul a b) := ⟨.mul, _, rfl, rfl⟩
theorem add (a b : Byte) : Statement (.add a b) := ⟨.add, _, rfl, rfl⟩
theorem push (a : Byte) : Statement (.push a) := ⟨.push, _, rfl, rfl⟩
theorem pop (a : Byte) : Statement (.pop a) := ⟨.pop, _, rfl, rfl⟩
theorem call (a : Byte) : Statement (.call a) := ⟨.call, _, rfl, rfl⟩
theorem ret : Statement .ret := ⟨.ret, _, rfl, by decide⟩

end Sys2Proof.Laws.EncodedLength
end

