-- ==== Sys2Proof/Tests/Slice0.lean ====
section
/-! SUPPORT. The session's own tests: the smoke of WellFormed, words written out from the spec's encodings, one step on small
states (expected values from 95_test_vectors.md, or worked by hand from the rule named), and for every statement with
hypotheses a state and operands that meet them, clause by clause. -/

namespace Sys2Proof.Tests

open Sys2Proof.Machine

/-- The next state, where there is one. -/
def nextOf : Result → Option State
  | .next t => some t
  | .fault _ => none
  | .refused _ => none

/-- A running machine with `code` at `pc`, the registers `rs` set in order, and the cells `cs` written. -/
def machine (pc : Nat) (code : List Byte) (rs : List (Reg × Byte)) (cs : List (Nat × Byte)) : State :=
  rs.foldl (fun s c => s.setReg c.1 c.2)
    { State.reset with
      pc := BitVec.ofNat 9 pc
      mem := layBytes (cs.foldl (fun m c => m.put c.1 c.2) []) pc code }

/-- A value read from the state after one step. -/
def after {α : Type} (s : State) (read : State → α) : Option α := (nextOf (step s)).map read

/-- The halt record and `pc` after one step. -/
def record (s : State) : Option (HaltCause × Word9 × Word9 × Word9) :=
  after s fun t => (t.haltCause, t.faultPc, t.faultInfo, t.pc)

/-! ## WellFormed refuses an ill-formed operand in every register position (30_encoding.md R66) -/

theorem test_ill_formed_ldi : (Instr.ldi 8#8 0#8).wellFormed = false := by decide
theorem test_ill_formed_prn : (Instr.prn 9#8).wellFormed = false := by decide
theorem test_ill_formed_mul_a : (Instr.mul 255#8 0#8).wellFormed = false := by decide
theorem test_ill_formed_mul_b : (Instr.mul 0#8 8#8).wellFormed = false := by decide
theorem test_ill_formed_add_a : (Instr.add 10#8 0#8).wellFormed = false := by decide
theorem test_ill_formed_add_b : (Instr.add 0#8 9#8).wellFormed = false := by decide
theorem test_ill_formed_push : (Instr.push 8#8).wellFormed = false := by decide
theorem test_ill_formed_pop : (Instr.pop 12#8).wellFormed = false := by decide
theorem test_ill_formed_call : (Instr.call 128#8).wellFormed = false := by decide
theorem test_well_formed_edge : (Instr.ldi 7#8 255#8).wellFormed = true := by decide

/-! ## Decoding: the words of 30_encoding.md R68, bit by bit -/

theorem test_decode_hlt : decode [0b00000001#8] = .ok (.hlt, []) := rfl
theorem test_decode_ldi : decode [0b10000010#8, 0b00000011#8, 0b11111111#8] = .ok (.ldi 3#8 255#8, []) := rfl
theorem test_decode_prn : decode [0b01000111#8, 0b00000101#8] = .ok (.prn 5#8, []) := rfl
theorem test_decode_mul : decode [0b10100010#8, 0b00000111#8, 0b00000001#8] = .ok (.mul 7#8 1#8, []) := rfl
theorem test_decode_add : decode [0b10100000#8, 0b00000010#8, 0b00000110#8] = .ok (.add 2#8 6#8, []) := rfl
theorem test_decode_push : decode [0b01000101#8, 0b00000100#8] = .ok (.push 4#8, []) := rfl
theorem test_decode_pop : decode [0b01000110#8, 0b00000001#8] = .ok (.pop 1#8, []) := rfl
theorem test_decode_call : decode [0b01010000#8, 0b00000010#8] = .ok (.call 2#8, []) := rfl
theorem test_decode_ret : decode [0b00010001#8, 0b11111111#8] = .ok (.ret, [0b11111111#8]) := rfl

/-- The table "Decode" of 95_test_vectors.md, its unknown bytes. -/
theorem test_decode_unknown :
    [0x00#8, 0x02#8, 0x10#8, 0x41#8, 0x51#8, 0xA1#8, 0xA4#8, 0xC2#8, 0xFF#8, 0x81#8].map Opcode.ofByte =
      List.replicate 10 none := by decide

/-- An unknown byte is reported though its count field asks for operands that are not there (60_exceptions.md R148). -/
theorem test_decode_unknown_before_missing : decode [0x81#8] = .error (.unknownOpcode 0x81#8) := rfl

theorem test_decode_missing_b : decode [0x82#8, 0x00#8] = .error (.missingByte 2) := rfl

theorem test_table_word_ldi : decodeTableWord 24 0xFF0382 = some (.ldi 3#8 255#8) := by decide
theorem test_table_word_prn_short : decodeTableWord 8 0xFFFF47 = some (.prn 0#8) := by decide
theorem test_table_word_unknown : decodeTableWord 8 0x00 = none := by decide
theorem test_fetch_word_runs : after (State.reset.withFetchWord 24 0x2A0382) (fun t => t.reg 3) = some 42#8 := by decide

/-! ## One step, from 95_test_vectors.md -/

/-- V-SEQ-3. -/
theorem test_hlt_at_255 : (after (machine 255 [0x01#8] [] []) fun t => (t.run, t.haltCause, t.pc)) =
    some (.halted, .halt, 256#9) := by decide
/-- V-HLT-2. -/
theorem test_hlt_record : record (machine 100 [0x01#8] [] []) = some (.halt, 0#9, 0#9, 101#9) := by decide
/-- V-SEQ-2. -/
theorem test_ldi_to_top : (after (machine 253 [0x82#8, 1#8, 9#8] [] []) fun t => (t.reg 1, t.pc)) =
    some (9#8, 256#9) := by decide
/-- V-LDI-3. -/
theorem test_ldi_sp : (after (machine 0 [0x82#8, 7#8, 0x10#8] [] []) fun t => (t.sp, t.pc)) = some (16#8, 3#9) := by decide
/-- V-PRN-3, after an earlier output. -/
theorem test_prn_sp : (after ((machine 0 [0x47#8, 7#8] [] []).emit 3#8) fun t => (t.out, t.pc)) =
    some ([3#8, 244#8], 2#9) := by decide
/-- V-MUL-3. -/
theorem test_mul_wraps : (after (machine 0 [0xA2#8, 0#8, 1#8] [(0, 255#8), (1, 255#8)] []) fun t => (t.reg 0, t.reg 1)) =
    some (1#8, 255#8) := by decide
/-- V-MUL-6. -/
theorem test_mul_same_register : (after (machine 0 [0xA2#8, 2#8, 2#8] [(2, 15#8)] []) fun t => (t.reg 2, t.pc)) =
    some (225#8, 3#9) := by decide
/-- V-ADD-3. -/
theorem test_add_wraps : (after (machine 0 [0xA0#8, 0#8, 1#8] [(0, 200#8), (1, 100#8)] []) fun t => (t.reg 0, t.reg 1)) =
    some (44#8, 100#8) := by decide
/-- V-ADD-7. -/
theorem test_add_sp : (after (machine 0 [0xA0#8, 7#8, 1#8] [(1, 12#8)] []) fun t => (t.sp, t.pc)) = some (0#8, 3#9) := by
  decide
/-- V-PUSH-2. -/
theorem test_push_wraps : (after (machine 0 [0x45#8, 3#8] [(7, 0#8), (3, 9#8)] []) fun t => (t.sp, t.byteAt 255, t.pc)) =
    some (255#8, 9#8, 2#9) := by decide
/-- V-PUSH-3. -/
theorem test_push_sp : (after (machine 0 [0x45#8, 7#8] [] []) fun t => (t.sp, t.byteAt 243)) = some (243#8, 243#8) := by
  decide
/-- V-POP-2. -/
theorem test_pop_wraps : (after (machine 0 [0x46#8, 1#8] [(7, 255#8)] [(255, 90#8)]) fun t => (t.reg 1, t.sp, t.pc)) =
    some (90#8, 0#8, 2#9) := by decide
/-- V-POP-3. -/
theorem test_pop_sp : (after (machine 0 [0x46#8, 7#8] [(7, 243#8)] [(243, 99#8)]) fun t => t.sp) = some 100#8 := by decide
/-- V-CALL-3. -/
theorem test_call_at_253 : (after (machine 253 [0x50#8, 0#8] [] []) fun t => (t.sp, t.byteAt 243, t.pc)) =
    some (243#8, 255#8, 0#9) := by decide
/-- V-CALL-2. -/
theorem test_call_sp : (after (machine 0 [0x50#8, 7#8] [] []) fun t => (t.sp, t.byteAt 243, t.pc)) =
    some (243#8, 2#8, 243#9) := by decide
/-- V-RET-1. -/
theorem test_ret : (after (machine 16 [0x11#8] [(7, 243#8)] [(243, 8#8)]) fun t => (t.pc, t.sp)) = some (8#9, 244#8) := by
  decide
/-- V-SEQ-6. -/
theorem test_ret_at_255 : (after (machine 255 [0x11#8] [(7, 243#8)] [(243, 5#8)]) fun t => (t.pc, t.sp)) =
    some (5#9, 244#8) := by decide

/-! ## Faults, from 95_test_vectors.md -/

/-- V-SEQ-2, its next step. -/
theorem test_fetch_at_256 : record (machine 256 [] [] []) = some (.fault .fetchRange, 256#9, 256#9, 256#9) := by decide
/-- V-SEQ-5. -/
theorem test_fetch_operand_b : record (machine 254 [0x82#8, 0#8] [] []) =
    some (.fault .fetchRange, 254#9, 256#9, 254#9) := by decide
/-- V-SEQ-7. -/
theorem test_unknown_at_255 : record (machine 255 [0xFF#8] [] []) =
    some (.fault .unknownOpcode, 255#9, 255#9, 255#9) := by decide
/-- V-ADD-8: operand A first. -/
theorem test_bad_register_a_first : record (machine 0 [0xA0#8, 0x0A#8, 0x0B#8] [] []) =
    some (.fault .badRegister, 0#9, 10#9, 0#9) := by decide
/-- V-MUL-9. -/
theorem test_bad_register_b : record (machine 0 [0xA2#8, 0#8, 8#8] [] []) =
    some (.fault .badRegister, 0#9, 8#9, 0#9) := by decide
/-- V-CALL-4, with the stack pointer kept. -/
theorem test_call_at_254 : record (machine 254 [0x50#8, 0#8] [(7, 253#8)] []) =
      some (.fault .retaddrRange, 254#9, 256#9, 254#9) ∧
    (after (machine 254 [0x50#8, 0#8] [(7, 253#8)] []) fun t => t.sp) = some 253#8 := by decide
/-- V-CALL-7: the register check precedes the return address check. -/
theorem test_call_bad_register_first : record (machine 254 [0x50#8, 9#8] [] []) =
    some (.fault .badRegister, 254#9, 9#9, 254#9) := by decide
/-- V-SEQ-8. -/
theorem test_halted_has_no_step : step (State.reset.halt .halt) = .fault .halted := rfl

/-! ## Memory, reset and loader -/

/-- Writing what an unlisted cell reads as removes its entry. -/
theorem test_put_removes : (Memory.put [(3, 7#8), (5, 9#8)] 3 0#8) = [(5, 9#8)] := by decide
theorem test_put_keeps_order : (Memory.put [(3, 7#8), (5, 9#8)] 4 1#8) = [(3, 7#8), (4, 1#8), (5, 9#8)] := by decide
/-- 30_encoding.md R72 with the image of 95_test_vectors.md E1; the comment line and the line that is no literal are skipped. -/
theorem test_load_text : loadText "# demo\n10000010 # LDI\n\n00000011\nxyz\n".toList = [0x82#8, 0x03#8] := by decide

/-- The machine constructed from an image of one HLT byte, with INIT_REGS all 9 and INIT_MEM all 0. -/
def haltMachine : State :=
  { State.reset with mem := [(0, 0x01#8)], regs := #v[9#8, 9#8, 9#8, 9#8, 9#8, 9#8, 9#8, 244#8] }

theorem test_construct_halt : State.construct (fun _ => 9#8) (fun _ => 0#8) [0x01#8] = some haltMachine := by
  decide +kernel

/-! ## Witnesses: for every statement with hypotheses, a state and operands that meet them -/

theorem witness_OpcodeByteDecidesLength :
    decode [0x82#8, 0#8, 8#8, 1#8] = .ok (.ldi 0#8 8#8, [1#8]) ∧ (0xC0#8).toNat / 64 = 3 ∧ (0xFF#8).toNat / 64 = 3 := by
  decide

theorem witness_OtherBytesAreIllegalOpcodes :
    0x00#8 ∉ specOpcodes ∧ FetchesOpcode 0x00#8 (machine 0 [] [] []) ∧
    0xFF#8 ∉ specOpcodes ∧ FetchesOpcode 0xFF#8 (machine 255 [0xFF#8] [] []) := by
  simp only [FetchesOpcode]; decide

theorem witness_OnlyHaltedMachinesHaveNoStep :
    State.construct (fun _ => 9#8) (fun _ => 0#8) [0x01#8] = some haltMachine ∧ (State.reset.halt .halt).run = .halted ∧ State.reset.run = .running ∧ ∃ t, step State.reset = .next t :=
  ⟨test_construct_halt, rfl, rfl, _, rfl⟩

theorem witness_StepRunsDecodedInstruction :
    (machine 255 [0x01#8] [] []).run = .running ∧
    decode (machine 255 [0x01#8] [] []).fetchWindow = .ok (.hlt, []) ∧
    decode (machine 253 [0x82#8, 8#8, 9#8] [] []).fetchWindow = .ok (.ldi 8#8 9#8, []) := by decide

/-- The last byte of an LDI at 253 lies at 255: `pc` becomes 256. -/
theorem witness_PcAfterStep_advances :
    ∃ t, step (machine 253 [0x82#8, 1#8, 9#8] [] []) = .next t ∧
      (∀ c info, ¬ HaltsWith c info (machine 253 [0x82#8, 1#8, 9#8] [] []) t) ∧
      opSetsPc ((machine 253 [0x82#8, 1#8, 9#8] [] []).byteAt 253) = false :=
  ⟨_, rfl, fun _ _ h => absurd h.1 (by decide), by decide⟩

theorem witness_PcAfterStep_call :
    ∃ t, step (machine 253 [0x50#8, 7#8] [] []) = .next t ∧
      (∀ c info, ¬ HaltsWith c info (machine 253 [0x50#8, 7#8] [] []) t) ∧
      opSetsPc ((machine 253 [0x50#8, 7#8] [] []).byteAt 253) = true :=
  ⟨_, rfl, fun _ _ h => absurd h.1 (by decide), by decide⟩

theorem witness_PcAfterStep_ret :
    ∃ t, step (machine 255 [0x11#8] [] []) = .next t ∧
      (∀ c info, ¬ HaltsWith c info (machine 255 [0x11#8] [] []) t) ∧
      opSetsPc ((machine 255 [0x11#8] [] []).byteAt 255) = true :=
  ⟨_, rfl, fun _ _ h => absurd h.1 (by decide), by decide⟩

/-- Register operand bytes at the ends of the valid and the invalid range, for the operand clauses of every instruction. -/
theorem witness_register_operands :
    (0#8).toNat = (0 : Reg).val ∧ (7#8).toNat = (7 : Reg).val ∧ 8 ≤ (8#8).toNat ∧ 8 ≤ (255#8).toNat ∧ (7#8).toNat < 8 := by
  decide

/-- The first clause of every FetchedAlone and FetchedAs. -/
theorem witness_fetch_past_memory :
    (machine 256 [] [] []).run = .running ∧ 256 ≤ (machine 256 [] [] []).pc.toNat ∧
    (machine 511 [] [] []).run = .running ∧ 256 ≤ (machine 511 [] [] []).pc.toNat := by decide

theorem witness_HltAdvancesThenHalts : FetchesOpcode 0x01#8 (machine 255 [0x01#8] [] []) := ⟨rfl, by decide, by decide⟩

theorem witness_LdiLoadsImmediate :
    FetchesOpcode 0x82#8 (machine 254 [0x82#8] [] []) ∧ 256 ≤ (machine 254 [0x82#8] [] []).pc.toNat + 2 ∧
    FetchesOpcode 0x82#8 (machine 253 [0x82#8, 7#8, 255#8] [] []) ∧
      (machine 253 [0x82#8, 7#8, 255#8] [] []).pc.toNat + 2 < 256 := by
  simp only [FetchesOpcode]; decide

theorem witness_PrnEmitsRegister :
    FetchesOpcode 0x47#8 (machine 255 [0x47#8] [] []) ∧ 256 ≤ (machine 255 [0x47#8] [] []).pc.toNat + 1 ∧
    FetchesOpcode 0x47#8 (machine 254 [0x47#8, 7#8] [] []) ∧ (machine 254 [0x47#8, 7#8] [] []).pc.toNat + 1 < 256 := by
  simp only [FetchesOpcode]; decide

theorem witness_MulMultipliesModulo256 :
    FetchesOpcode 0xA2#8 (machine 255 [0xA2#8] [] []) ∧ 256 ≤ (machine 255 [0xA2#8] [] []).pc.toNat + 2 ∧
    FetchesOpcode 0xA2#8 (machine 253 [0xA2#8, 7#8, 7#8] [] []) ∧
      (machine 253 [0xA2#8, 7#8, 7#8] [] []).pc.toNat + 2 < 256 := by
  simp only [FetchesOpcode]; decide

theorem witness_AddAddsModulo256 :
    FetchesOpcode 0xA0#8 (machine 254 [0xA0#8] [] []) ∧ 256 ≤ (machine 254 [0xA0#8] [] []).pc.toNat + 2 ∧
    FetchesOpcode 0xA0#8 (machine 253 [0xA0#8, 0#8, 7#8] [] []) ∧
      (machine 253 [0xA0#8, 0#8, 7#8] [] []).pc.toNat + 2 < 256 := by
  simp only [FetchesOpcode]; decide

/-- The push lands in cell 255 when `sp` is 0, and over the instruction itself when `sp` is 1. -/
theorem witness_PushStoresRegister :
    (machine 0 [0x45#8, 7#8] [(7, 0#8)] []).mem.wf ∧ (machine 0 [0x45#8, 0#8] [(7, 1#8)] []).mem.wf ∧
    FetchesOpcode 0x45#8 (machine 255 [0x45#8] [] []) ∧ 256 ≤ (machine 255 [0x45#8] [] []).pc.toNat + 1 ∧
    FetchesOpcode 0x45#8 (machine 254 [0x45#8, 7#8] [] []) ∧ (machine 254 [0x45#8, 7#8] [] []).pc.toNat + 1 < 256 := by
  simp only [FetchesOpcode]; decide

theorem witness_PopLoadsRegister :
    (0 : Reg) ≠ 7 ∧ (6 : Reg) ≠ 7 ∧
    FetchesOpcode 0x46#8 (machine 255 [0x46#8] [] []) ∧ 256 ≤ (machine 255 [0x46#8] [] []).pc.toNat + 1 ∧
    FetchesOpcode 0x46#8 (machine 254 [0x46#8, 7#8] [] []) ∧ (machine 254 [0x46#8, 7#8] [] []).pc.toNat + 1 < 256 := by
  simp only [FetchesOpcode]; decide

/-- A CALL at 253 is the last that completes, at 254 its return address is 256, at 255 its operand lies past memory. -/
theorem witness_CallPushesReturnAddressAndJumps :
    (machine 253 [0x50#8, 7#8] [] []).mem.wf ∧ (machine 253 [0x50#8, 7#8] [] []).pc.toNat + 2 < 256 ∧
    (machine 254 [0x50#8, 7#8] [] []).pc = 254#9 ∧
    FetchesOpcode 0x50#8 (machine 255 [0x50#8] [] []) ∧ 256 ≤ (machine 255 [0x50#8] [] []).pc.toNat + 1 ∧
    FetchesOpcode 0x50#8 (machine 254 [0x50#8, 7#8] [] []) ∧ (machine 254 [0x50#8, 7#8] [] []).pc.toNat + 1 < 256 := by
  simp only [FetchesOpcode]; decide

theorem witness_RetPopsPc : FetchesOpcode 0x11#8 (machine 255 [0x11#8] [(7, 255#8)] []) := ⟨rfl, by decide, by decide⟩

theorem witness_LdiThenPrnOutputsValue : (0#8).toNat < 8 ∧ (7#8).toNat < 8 := by decide

/-- R7 on neither side, on either side, on both. -/
theorem witness_PushPopRoundTrip :
    (machine 0 [] [(7, 0#8)] []).mem.wf ∧ (6#8).toNat = (6 : Reg).val ∧ (7#8).toNat = (7 : Reg).val ∧ (6 : Reg) ≠ 7 := by
  decide

theorem witness_RetReturnsAfterCall :
    (machine 253 [0x50#8, 1#8] [(7, 0#8)] []).mem.wf ∧ (machine 253 [0x50#8, 1#8] [(7, 0#8)] []).pc.toNat + 2 < 256 ∧
    ∃ t, exec (.call 1#8) (machine 253 [0x50#8, 1#8] [(7, 0#8)] []) = .next t ∧
      ∃ u : State, u ≠ t ∧ u.sp = t.sp ∧ u.byteAt t.sp.toNat = t.byteAt t.sp.toNat :=
  ⟨by decide, by decide, _, rfl, State.emit _ 0#8, by decide, rfl, rfl⟩

theorem witness_FetchPastMemoryHalts :
    (machine 256 [] [] []).run = .running ∧ 256 ≤ (machine 256 [] [] []).pc.toNat ∧
    (machine 255 [0x50#8] [] []).pc.toNat = 255 ∧ (machine 255 [0x50#8] [] []).byteAt 255 = 0x50#8 ∧
    (machine 254 [0xA0#8] [] []).pc.toNat = 254 ∧ (machine 254 [0xA0#8] [] []).byteAt 254 = 0xA0#8 := by decide

theorem witness_BadRegisterOperandHalts :
    decode (machine 253 [0xA0#8, 7#8, 8#8] [] []).fetchWindow = .ok (.add 7#8 8#8, []) ∧
    firstBadRegister (.add 7#8 8#8) = some 8#8 ∧ firstBadRegister (.mul 255#8 8#8) = some 255#8 ∧
    decode (machine 253 [0x82#8, 7#8, 8#8] [] []).fetchWindow = .ok (.ldi 7#8 8#8, []) ∧
    firstBadRegister (.ldi 7#8 8#8) = none ∧ ∃ t, step (machine 253 [0x82#8, 7#8, 8#8] [] []) = .next t :=
  ⟨rfl, by decide, by decide, rfl, by decide, _, rfl⟩

theorem witness_InternalFaultIsUnreachable :
    0x00#8 ≠ 0xA2#8 ∧ 0x00#8 ≠ 0xA0#8 ∧ 0xA1#8 ≠ 0xA2#8 ∧ 0xA1#8 ≠ 0xA0#8 ∧ State.reset.haltCause ≠ .fault .internal ∧
    ∃ t, step State.reset = .next t :=
  ⟨by decide, by decide, by decide, by decide, by decide, _, rfl⟩

/-- Each check of the list fails first somewhere, and somewhere none fails. -/
theorem witness_StepTakesFirstFaultOfPriorityList :
    firstFault (machine 256 [] [] []) = some (.fetchRange, 256#9) ∧
    firstFault (machine 255 [0xFF#8] [] []) = some (.unknownOpcode, 255#9) ∧
    firstFault (machine 254 [0x82#8, 9#8] [] []) = some (.fetchRange, 256#9) ∧
    firstFault (machine 254 [0x50#8, 9#8] [] []) = some (.badRegister, 9#9) ∧
    firstFault (machine 0 [0xA0#8, 7#8, 8#8] [] []) = some (.badRegister, 8#9) ∧
    firstFault (machine 254 [0x50#8, 7#8] [] []) = some (.retaddrRange, 256#9) ∧
    firstFault (machine 253 [0x82#8, 7#8, 255#8] [] []) = none := by decide

theorem witness_HaltingStepIsHltOrPreciseFault :
    (∃ t, step (machine 255 [0x01#8] [] []) = .next t ∧ t.run = .halted) ∧
    (∃ t, step (machine 256 [] [] []) = .next t ∧ t.run = .halted) := ⟨⟨_, rfl, rfl⟩, _, rfl, rfl⟩

theorem witness_RegistersChangeOnlyWhereWritten :
    (∃ t, step (machine 0 [0x82#8, 6#8, 1#8] [] []) = .next t ∧ t.reg 6 ≠ (machine 0 [0x82#8, 6#8, 1#8] [] []).reg 6) ∧
    (∃ t, step (machine 0 [0x46#8, 0#8] [] []) = .next t ∧ t.reg 7 ≠ (machine 0 [0x46#8, 0#8] [] []).reg 7) :=
  ⟨⟨_, rfl, by decide⟩, _, rfl, by decide⟩

theorem witness_MemoryChangesOnlyByPushAndCall :
    (∃ t, step (machine 0 [0x45#8, 7#8] [(7, 0#8)] []) = .next t ∧
      t.byteAt 255 ≠ (machine 0 [0x45#8, 7#8] [(7, 0#8)] []).byteAt 255) ∧
    (∃ t, step (machine 0 [0x50#8, 0#8] [] []) = .next t ∧
      t.byteAt 243 ≠ (machine 0 [0x50#8, 0#8] [] []).byteAt 243) :=
  ⟨⟨_, rfl, by decide⟩, _, rfl, by decide⟩

theorem witness_OutputGrowsOnlyByPrn :
    ∃ t, step (machine 254 [0x47#8, 7#8] [] []) = .next t ∧ t.out = [244#8] := ⟨_, rfl, rfl⟩

/-- PUSH onto the opcode and onto the second operand of the next instruction, and CALL R7, whose target is the cell it just
stored to. -/
theorem witness_NextFetchSeesStoredByte :
    (machine 6 [0x45#8, 0#8] [(7, 9#8)] []).mem.wf ∧ (machine 6 [0x45#8, 0#8] [(7, 11#8)] []).mem.wf ∧
    (∃ t, exec (.push 0#8) (machine 6 [0x45#8, 0#8] [(7, 9#8)] []) = .next t ∧ t.pc.toNat + 0 = (9#8 - 1#8).toNat) ∧
    (∃ t, exec (.push 0#8) (machine 6 [0x45#8, 0#8] [(7, 11#8)] []) = .next t ∧ t.pc.toNat + 2 = (11#8 - 1#8).toNat) ∧
    (machine 253 [0x50#8, 7#8] [] []).mem.wf ∧ (machine 253 [0x50#8, 7#8] [] []).pc.toNat + 2 < 256 ∧
    (∃ t, exec (.call 7#8) (machine 253 [0x50#8, 7#8] [] []) = .next t ∧ t.pc.toNat + 0 = (244#8 - 1#8).toNat) :=
  ⟨by decide, by decide, ⟨_, rfl, by decide⟩, ⟨_, rfl, by decide⟩, by decide, by decide, _, rfl, by decide⟩

/-- RET at 254: the cell after it, which holds one byte here and another there, is not read; nor is a cell beside the stack's
top. -/
theorem witness_StepReadsOnlyItsOwnCells :
    ∃ s s' t : State, s.mem.wf ∧ s'.mem.wf ∧ s' = { s with mem := s'.mem } ∧
      (∀ y, y ≠ 255 → s'.byteAt y = s.byteAt y) ∧ s'.byteAt 255 ≠ s.byteAt 255 ∧
      (∀ k, k ≤ opCount (s.byteAt s.pc.toNat) → 255 ≠ s.pc.toNat + k) ∧
      (s.byteAt s.pc.toNat ∈ [0x46#8, 0x11#8] → 255 ≠ s.sp.toNat) ∧ step s = .next t := by
  refine ⟨machine 254 [0x11#8] [] [], machine 254 [0x11#8, 9#8] [] [], _, by decide, by decide, by decide, ?_, by decide, ?_,
    by decide, rfl⟩
  · intro y hy
    exact Memory.get_put_of_ne [(254, 0x11#8)] 9#8 hy
  · intro k hk
    have : opCount ((machine 254 [0x11#8] [] []).byteAt (machine 254 [0x11#8] [] []).pc.toNat) = 0 := by decide
    have : (machine 254 [0x11#8] [] []).pc.toNat = 254 := by decide
    omega

theorem witness_CanonicalMemoryIsDeterminedByReads :
    Memory.wf [(0, 1#8), (255, 255#8)] ∧ Memory.wf [] := by decide

theorem witness_ConstructGivesResetState :
    (List.replicate 256 1#8).length ≤ 256 ∧ ([] : List Byte).length ≤ 256 ∧ 256 < (List.replicate 257 1#8).length :=
  ⟨(List.length_replicate ..).le, Nat.zero_le _, (List.length_replicate ..).symm ▸ Nat.lt_succ_self 256⟩

/-- The machine constructed from an image of one byte that is no opcode, with INIT_REGS and INIT_MEM all 0. -/
def errorMachine : State := { State.reset with mem := [(0, 0xFF#8)] }

theorem test_construct_error : State.construct (fun _ => 0#8) (fun _ => 0#8) [0xFF#8] = some errorMachine := by
  decide +kernel

theorem witness_StepKeepsInvariant : haltMachine.Inv ∧ ∃ t, step haltMachine = .next t :=
  ⟨⟨by decide, by decide, ⟨rfl, rfl, rfl⟩⟩, _, rfl⟩

/-- A running machine is reachable, one that has ended cleanly, and one that has ended in error. -/
theorem witness_ReachableStatesRunOrHaveEnded :
    (Reachable haltMachine ∧ haltMachine.run = .running) ∧ (∃ t, Reachable t ∧ t.endedCleanly) ∧
    (∃ t, Reachable t ∧ t.endedInError) :=
  ⟨⟨.construct test_construct_halt, rfl⟩, ⟨_, .step (.construct test_construct_halt) rfl, rfl, rfl⟩,
    _, .step (.construct test_construct_error) rfl, rfl, _, rfl⟩

end Sys2Proof.Tests
end

/-! PROOFS: the state (10_state.md). First what a fetch hands to `exec` or to a decode fault, and what `exec` can do,
each said once; then the obligations, assembled from them. -/

/-! ## What decoding answers -/

namespace Sys2Proof

theorem takeOne_eq_ok {mk : Byte → Instr} {bs rest : List Byte} {i : Instr} (h : takeOne mk bs = .ok (i, rest)) :
    ∃ a, i = mk a ∧ bs = a :: rest := by
  rcases bs with _ | ⟨a, bs⟩ <;> cases h
  exact ⟨a, rfl, rfl⟩

theorem takeTwo_eq_ok {mk : Byte → Byte → Instr} {bs rest : List Byte} {i : Instr}
    (h : takeTwo mk bs = .ok (i, rest)) : ∃ a b, i = mk a b ∧ bs = a :: b :: rest := by
  rcases bs with _ | ⟨a, _ | ⟨b, bs⟩⟩ <;> cases h
  exact ⟨a, b, rfl, rfl⟩

theorem takeOne_eq_error {mk : Byte → Instr} {bs : List Byte} {e : DecodeError} (h : takeOne mk bs = .error e) :
    e = .missingByte (bs.length + 1) ∧ bs.length < 2 := by
  rcases bs with _ | ⟨a, bs⟩ <;> cases h
  exact ⟨rfl, Nat.zero_lt_two⟩

theorem takeTwo_eq_error {mk : Byte → Byte → Instr} {bs : List Byte} {e : DecodeError}
    (h : takeTwo mk bs = .error e) : e = .missingByte (bs.length + 1) ∧ bs.length < 2 := by
  rcases bs with _ | ⟨a, _ | ⟨b, bs⟩⟩ <;> cases h
  · exact ⟨rfl, Nat.zero_lt_two⟩
  · exact ⟨rfl, Nat.one_lt_two⟩

theorem decodeOperands_eq_ok {o : Opcode} {bs rest : List Byte} {i : Instr}
    (h : decodeOperands o bs = .ok (i, rest)) : o.byte :: bs = encode i ++ rest := by
  cases o with
  | hlt | ret => cases h; rfl
  | prn | push | pop | call => obtain ⟨a, rfl, rfl⟩ := takeOne_eq_ok h; rfl
  | ldi | mul | add => obtain ⟨a, b, rfl, rfl⟩ := takeTwo_eq_ok h; rfl

/-- The byte reported missing is the first one past the end, at most two after the opcode (40_sequencer.md R83). -/
theorem decodeOperands_eq_error {o : Opcode} {bs : List Byte} {e : DecodeError}
    (h : decodeOperands o bs = .error e) : e = .missingByte (bs.length + 1) ∧ bs.length < 2 := by
  cases o with
  | hlt | ret => cases h
  | prn | push | pop | call => exact takeOne_eq_error h
  | ldi | mul | add => exact takeTwo_eq_error h

/-- Decoding looks the first byte up and then asks for the operands of its row (40_sequencer.md R82, R83). -/
theorem decode_cons_cases (op : Byte) (bs : List Byte) :
    (Opcode.ofByte op = none ∧ decode (op :: bs) = .error (.unknownOpcode op)) ∨
    ∃ o : Opcode, op = o.byte ∧ decode (op :: bs) = decodeOperands o bs := by
  cases ho : Opcode.ofByte op with
  | none => exact .inl ⟨rfl, decode_cons_unknown ho bs⟩
  | some o =>
    obtain rfl := Opcode.ofByte_eq_some.1 ho
    exact .inr ⟨o, rfl, decode_cons_row o bs⟩

/-- The bytes of a decoded instruction stand at the front of what was decoded, and the rest is handed on. -/
theorem eq_encode_append_of_decode {bs rest : List Byte} {i : Instr} (h : decode bs = .ok (i, rest)) :
    bs = encode i ++ rest := by
  cases bs with
  | nil => cases h
  | cons op bs =>
    obtain ⟨-, hd⟩ | ⟨o, rfl, hd⟩ := decode_cons_cases op bs <;> rw [hd] at h
    · cases h
    · exact decodeOperands_eq_ok h

/-- What bytes that are no instruction look like, by the error they give. -/
theorem decode_eq_error {bs : List Byte} {e : DecodeError} (h : decode bs = .error e) :
    (e = .missingByte bs.length ∧ bs.length < 3) ∨
    ∃ op, e = .unknownOpcode op ∧ bs[0]? = some op ∧ Opcode.ofByte op = none := by
  cases bs with
  | nil => cases h; exact .inl ⟨rfl, Nat.zero_lt_succ 2⟩
  | cons op bs =>
    obtain ⟨ho, hd⟩ | ⟨o, rfl, hd⟩ := decode_cons_cases op bs <;> rw [hd] at h
    · cases h; exact .inr ⟨op, rfl, rfl, ho⟩
    · obtain ⟨rfl, hlt⟩ := decodeOperands_eq_error h
      exact .inl ⟨rfl, Nat.succ_lt_succ hlt⟩

end Sys2Proof

namespace Sys2Proof.Machine

/-! ## What a fetch reads -/

theorem Memory.length_window (m : Memory) (a n : Nat) : (m.window a n).length = min n (Config.memSize - a) := by
  induction n generalizing a with
  | zero => simp [Memory.window]
  | succ n ih =>
    by_cases ha : a < Config.memSize
    · simp only [Memory.window, Memory.read?_of_lt m ha, List.length_cons, ih]; omega
    · simp only [Memory.window, Memory.read?_of_ge m (Nat.not_lt.1 ha), List.length_nil]; omega

/-- What the window holds at `k` is what memory holds `k` above its start. -/
theorem Memory.get_of_window_getElem? {m : Memory} {a n k : Nat} {b : Byte} (h : (m.window a n)[k]? = some b) :
    m.get (a + k) = b := by
  induction n generalizing a k with
  | zero => simp [Memory.window] at h
  | succ n ih =>
    by_cases ha : a < Config.memSize
    · simp only [Memory.window, Memory.read?_of_lt m ha] at h
      cases k with
      | zero => simpa using h
      | succ k => simpa [Nat.add_assoc, Nat.add_comm 1] using ih h
    · simp [Memory.window, Memory.read?_of_ge m (Nat.not_lt.1 ha)] at h

theorem length_fetchWindow (s : State) : s.fetchWindow.length = min 3 (256 - s.pc.toNat) :=
  Memory.length_window ..

theorem byteAt_of_fetchWindow_getElem? {s : State} {k : Nat} {b : Byte} (h : s.fetchWindow[k]? = some b) :
    s.byteAt (s.pc.toNat + k) = b := Memory.get_of_window_getElem? h

theorem pc_lt_of_fetchWindow_getElem? {s : State} {k : Nat} {b : Byte} (h : s.fetchWindow[k]? = some b) :
    s.pc.toNat + k < 256 := by
  have := (List.getElem?_eq_some_iff.1 h).1
  rw [length_fetchWindow] at this
  omega

/-- The bytes of the instruction that a step runs are the bytes of memory from `pc` on. -/
theorem byteAt_of_decode_fetchWindow {s : State} {i : Instr} {rest : List Byte} {k : Nat} {b : Byte}
    (hd : decode s.fetchWindow = .ok (i, rest)) (hb : (encode i)[k]? = some b) : s.byteAt (s.pc.toNat + k) = b := by
  apply byteAt_of_fetchWindow_getElem?
  rw [eq_encode_append_of_decode hd, List.getElem?_append_left (List.getElem?_eq_some_iff.1 hb).1, hb]

/-- The instruction that a step runs ends inside memory. -/
theorem pc_add_length_le_of_decode_fetchWindow {s : State} {i : Instr} {rest : List Byte}
    (hd : decode s.fetchWindow = .ok (i, rest)) : s.pc.toNat + (encode i).length ≤ 256 := by
  have hlen := length_fetchWindow s
  have hpos : 0 < (encode i).length := by cases i <;> exact Nat.succ_pos _
  rw [eq_encode_append_of_decode hd, List.length_append] at hlen
  omega

/-- Where fewer bytes than the longest instruction are fetched, the first one missing is at 256. -/
theorem pc_add_length_fetchWindow {s : State} (hpc : s.pc.toNat ≤ 256) (hlt : s.fetchWindow.length < 3) :
    s.pc + BitVec.ofNat 9 s.fetchWindow.length = 256#9 := by
  rw [length_fetchWindow] at hlt ⊢
  bv_omega

/-! ## What a meaning can do -/

/-- `t` is `s` after the BAD_REGISTER fault of the first of these operand bytes that is no register index. -/
def TakesBadRegister (operands : List Byte) (s t : State) : Prop :=
  ∃ b, operands.find? (fun b => 8 ≤ b.toNat) = some b ∧ t = s.takeFault .badRegister (zext9 b)

theorem withReg_next {a : Byte} {s t : State} {k : Reg → Result} (h : withReg a s k = .next t) :
    (∃ r : Reg, a.toNat = r.val ∧ k r = .next t) ∨ TakesBadRegister [a] s t := by
  obtain ⟨r, hr, heq⟩ | ⟨ha, heq⟩ := withReg_cases a s k
  · exact .inl ⟨r, hr, heq ▸ h⟩
  · exact .inr ⟨a, by simp [ha], (Host.Outcome.next.inj (heq ▸ h)).symm⟩

theorem withRegs_next {a b : Byte} {s t : State} {k : Reg → Reg → Result} (h : withRegs a b s k = .next t) :
    (∃ ra rb : Reg, a.toNat = ra.val ∧ b.toNat = rb.val ∧ k ra rb = .next t) ∨ TakesBadRegister [a, b] s t := by
  obtain ⟨ra, ha, h⟩ | ⟨c, hc, rfl⟩ := withReg_next h
  · obtain ⟨rb, hb, h⟩ | ⟨c, hc, rfl⟩ := withReg_next h
    · exact .inl ⟨ra, rb, ha, hb, h⟩
    · have : ¬ 8 ≤ a.toNat := ha ▸ Nat.not_le.2 ra.isLt
      exact .inr ⟨c, by simpa [this] using hc, rfl⟩
  · obtain ⟨hge, rfl⟩ : 8 ≤ a.toNat ∧ a = c := by simpa using hc
    exact .inr ⟨a, by simp [hge], rfl⟩

/-- `Completes i s t`: the instruction takes no fault at `s` and leaves `t`. One row per instruction, in the order of
`Instr`: the handler's writes, the advance and, for HLT, the halt (40_sequencer.md R86 to R88). -/
inductive Completes : Instr → State → State → Prop where
  | hlt (s : State) : Completes .hlt s ((s.advance Opcode.hlt.byte s.pc).halt .halt)
  | ldi {a : Byte} {r : Reg} (imm : Byte) (s : State) (ha : a.toNat = r.val) :
      Completes (.ldi a imm) s ((s.setReg r imm).advance Opcode.ldi.byte s.pc)
  | prn {a : Byte} {r : Reg} (s : State) (ha : a.toNat = r.val) :
      Completes (.prn a) s ((s.emit (s.reg r)).advance Opcode.prn.byte s.pc)
  | mul {a b : Byte} {ra rb : Reg} (s : State) (ha : a.toNat = ra.val) (hb : b.toNat = rb.val) :
      Completes (.mul a b) s
        ((s.setReg ra (BitVec.ofNat 8 ((s.reg ra).toNat * (s.reg rb).toNat))).advance Opcode.mul.byte s.pc)
  | add {a b : Byte} {ra rb : Reg} (s : State) (ha : a.toNat = ra.val) (hb : b.toNat = rb.val) :
      Completes (.add a b) s
        ((s.setReg ra (BitVec.ofNat 8 ((s.reg ra).toNat + (s.reg rb).toNat))).advance Opcode.add.byte s.pc)
  | push {a : Byte} {r : Reg} (s : State) (ha : a.toNat = r.val) :
      Completes (.push a) s ((s.pushByte fun s' => s'.reg r).advance Opcode.push.byte s.pc)
  | pop {a : Byte} {r : Reg} (s : State) (ha : a.toNat = r.val) :
      Completes (.pop a) s ((s.setReg r s.topByte).incSp.advance Opcode.pop.byte s.pc)
  | call {a : Byte} {r : Reg} (s : State) (ha : a.toNat = r.val) (hpc : s.pc.toNat + 2 < 256) :
      Completes (.call a) s
        (((s.pushByte fun _ => low8 (returnAddress s)).setPc
          (zext9 ((s.pushByte fun _ => low8 (returnAddress s)).reg r))).advance Opcode.call.byte s.pc)
  | ret (s : State) : Completes .ret s ((s.setPc (zext9 s.topByte)).incSp.advance Opcode.ret.byte s.pc)

/-- Everything an instruction can do: BAD_REGISTER, for CALL RETADDR_RANGE, or complete. -/
theorem exec_cases {i : Instr} {s t : State} (h : exec i s = .next t) :
    TakesBadRegister (regOperands i) s t ∨
    (∃ a, i = .call a ∧ 256 ≤ s.pc.toNat + 2 ∧ t = s.takeFault .retaddrRange (returnAddress s)) ∨
    Completes i s t := by
  cases i with
  | hlt => cases h; exact .inr (.inr (.hlt s))
  | ldi a imm =>
    obtain ⟨r, ha, h⟩ | hbad := withReg_next h
    · cases h; exact .inr (.inr (.ldi imm s ha))
    · exact .inl hbad
  | prn a =>
    obtain ⟨r, ha, h⟩ | hbad := withReg_next h
    · cases h; exact .inr (.inr (.prn s ha))
    · exact .inl hbad
  | mul a b =>
    obtain ⟨ra, rb, ha, hb, h⟩ | hbad := withRegs_next h
    · rw [aluApply_mul] at h; cases h; exact .inr (.inr (.mul s ha hb))
    · exact .inl hbad
  | add a b =>
    obtain ⟨ra, rb, ha, hb, h⟩ | hbad := withRegs_next h
    · rw [aluApply_add] at h; cases h; exact .inr (.inr (.add s ha hb))
    · exact .inl hbad
  | push a =>
    obtain ⟨r, ha, h⟩ | hbad := withReg_next h
    · cases h; exact .inr (.inr (.push s ha))
    · exact .inl hbad
  | pop a =>
    obtain ⟨r, ha, h⟩ | hbad := withReg_next h
    · cases h; exact .inr (.inr (.pop s ha))
    · exact .inl hbad
  | call a =>
    obtain ⟨r, ha, h⟩ | hbad := withReg_next h
    · split at h
      next hpc => cases h; exact .inr (.inl ⟨a, rfl, hpc, rfl⟩)
      next hpc => cases h; exact .inr (.inr (.call s ha (Nat.not_le.1 hpc)))
    · exact .inl hbad
  | ret => cases h; exact .inr (.inr (.ret s))

/-! ## The fields that `incSp` and `pushByte` leave alone -/

@[simp] theorem State.incSp_mem (s : State) : s.incSp.mem = s.mem := rfl
@[simp] theorem State.incSp_pc (s : State) : s.incSp.pc = s.pc := rfl
@[simp] theorem State.incSp_run (s : State) : s.incSp.run = s.run := rfl
@[simp] theorem State.incSp_haltCause (s : State) : s.incSp.haltCause = s.haltCause := rfl
@[simp] theorem State.incSp_faultPc (s : State) : s.incSp.faultPc = s.faultPc := rfl
@[simp] theorem State.incSp_faultInfo (s : State) : s.incSp.faultInfo = s.faultInfo := rfl

/-! ## The invariant -/

/-- A running machine has the halt record of reset. -/
theorem State.recordOk_iff_of_running {s : State} (hrun : s.run = .running) :
    s.recordOk ↔ s.haltCause = .none ∧ s.faultPc = 0#9 ∧ s.faultInfo = 0#9 := by
  unfold State.recordOk
  split <;> simp_all

/-- Fault entry keeps the invariant where the record it writes is one of its cause's row. -/
theorem State.Inv.takeFault {s : State} (hs : s.Inv) {c : FaultCause} {info : Word9}
    (hrec : (s.takeFault c info).faultRecordOk c) : (s.takeFault c info).Inv :=
  ⟨hs.mem, hs.pc, rfl, rfl, hrec⟩

theorem State.Inv.takeDecodeFault {s : State} (hs : s.Inv) {e : DecodeError}
    (hd : decode s.fetchWindow = .error e) : (s.takeDecodeFault e).Inv := by
  obtain ⟨rfl, hlt⟩ | ⟨op, rfl, hop, hnone⟩ := decode_eq_error hd
  · exact hs.takeFault (c := .fetchRange) (pc_add_length_fetchWindow hs.pc hlt)
  · have hpc : s.pc.toNat < 256 := pc_lt_of_fetchWindow_getElem? hop
    have hbyte : s.byteAt s.pc.toNat = op := byteAt_of_fetchWindow_getElem? hop
    exact hs.takeFault (c := .unknownOpcode) ⟨hpc, by simpa [hbyte] using hnone, by simp [hbyte]⟩

theorem State.Inv.of_takesBadRegister {s t : State} (hs : s.Inv) {operands : List Byte}
    (h : TakesBadRegister operands s t) : t.Inv := by
  obtain ⟨b, hb, rfl⟩ := h
  have hge : 8 ≤ b.toNat := by simpa using List.find?_some hb
  exact hs.takeFault (c := .badRegister) ⟨by simpa using hge, by simpa using b.isLt⟩

/-- The only CALL whose bytes lie inside memory and whose return address does not is the one at 254. -/
theorem State.Inv.takeRetaddrRange {s : State} (hs : s.Inv) (hfits : s.pc.toNat + 2 ≤ 256)
    (hret : 256 ≤ s.pc.toNat + 2) : (s.takeFault .retaddrRange (returnAddress s)).Inv := by
  have hpc : s.pc = 254#9 := by bv_omega
  exact hs.takeFault (c := .retaddrRange) ⟨hpc, by simp [returnAddress, hpc]⟩

theorem Completes.mem_wf {i : Instr} {s t : State} (h : Completes i s t) (hs : s.mem.wf) : t.mem.wf := by
  cases h with
  | push => simpa using State.wf_pushByte hs _
  | call => simpa using State.wf_pushByte hs _
  | _ => simpa using hs

/-- The advance keeps `pc` at 256 or less where the instruction ends inside memory. -/
theorem State.pc_advance_le {s : State} {op : Byte} {w : Word9} (hs : s.pc.toNat ≤ 256)
    (hw : w.toNat + opLength op ≤ 256) : (s.advance op w).pc.toNat ≤ 256 := by
  rw [State.advance_pc]
  split
  · exact hs
  · rw [BitVec.toNat_add, BitVec.toNat_ofNat]; omega

theorem Completes.pc_le {i : Instr} {s t : State} (h : Completes i s t) (hs : s.pc.toNat ≤ 256)
    (hfits : s.pc.toNat + (encode i).length ≤ 256) : t.pc.toNat ≤ 256 := by
  have hjump (v : Byte) : (zext9 v).toNat ≤ 256 := by have := v.isLt; simp; omega
  cases h with
  | call => exact State.pc_advance_le (hjump _) hfits
  | ret => exact State.pc_advance_le (hjump _) hfits
  | _ => exact State.pc_advance_le hs hfits

/-- No completed instruction but HLT writes the running flag or a status register (10_state.md R26, R28). -/
theorem Completes.keepsStatus {i : Instr} {s t : State} (h : Completes i s t) (hi : i ≠ .hlt) : KeepsStatus s t := by
  cases h with
  | hlt => exact absurd rfl hi
  | _ => simp [KeepsStatus, State.pushByte_other]

theorem Completes.recordOk {i : Instr} {s t : State} (h : Completes i s t) (hrun : s.run = .running)
    (hs : s.recordOk) : t.recordOk := by
  obtain ⟨hcause, hpc, hinfo⟩ := (State.recordOk_iff_of_running hrun).1 hs
  by_cases hi : i = .hlt
  · subst hi
    cases h
    simp [State.recordOk, hpc, hinfo]
  · obtain ⟨hrun', hcause', hpc', hinfo'⟩ := h.keepsStatus hi
    exact (State.recordOk_iff_of_running (hrun'.trans hrun)).2
      ⟨hcause'.trans hcause, hpc'.trans hpc, hinfo'.trans hinfo⟩

theorem Completes.inv {i : Instr} {s t : State} (h : Completes i s t) (hs : s.Inv) (hrun : s.run = .running)
    (hfits : s.pc.toNat + (encode i).length ≤ 256) : t.Inv :=
  ⟨h.mem_wf hs.mem, h.pc_le hs.pc hfits, h.recordOk hrun hs.record⟩

/-- Settles O34: by what a step can do, each fault's record being of its row's shape. -/
theorem stepKeepsInvariant : Obligations.StepKeepsInvariant := by
  intro s t hs h
  obtain ⟨hrun, ⟨i, rest, hd, hx⟩ | ⟨e, hd, rfl⟩⟩ := step_cases h
  · have hfits := pc_add_length_le_of_decode_fetchWindow hd
    obtain hbad | ⟨a, rfl, hret, rfl⟩ | hdone := exec_cases hx
    · exact hs.of_takesBadRegister hbad
    · exact hs.takeRetaddrRange hfits hret
    · exact hdone.inv hs hrun hfits
  · exact hs.takeDecodeFault hd

/-! ## Registers -/

@[simp] theorem State.reg_takeDecodeFault (s : State) (e : DecodeError) (r : Reg) :
    (s.takeDecodeFault e).reg r = s.reg r := by
  cases e <;> rfl

theorem State.eq_of_reg_setReg_ne {s : State} {q r : Reg} {v : Byte} (h : (s.setReg q v).reg r ≠ s.reg r) :
    r = q := by
  by_contra hrq
  exact h (State.reg_setReg_of_ne s hrq v)

/-- The write column of 10_state.md R23, over the bytes of the instruction. -/
theorem Completes.reg_changes {i : Instr} {s t : State} (h : Completes i s t) {r : Reg} (hne : t.reg r ≠ s.reg r) :
    (∃ op a, (encode i)[0]? = some op ∧ (encode i)[1]? = some a ∧
      op ∈ [0x82#8, 0xA2#8, 0xA0#8, 0x46#8] ∧ a.toNat = r.val) ∨
    (∃ op, (encode i)[0]? = some op ∧ op ∈ [0x45#8, 0x46#8, 0x50#8, 0x11#8] ∧ r = 7) := by
  have hsp {u : State} {v : Byte} (h : (if r = 7 then v else u.reg r) ≠ u.reg r) : r = 7 := by
    by_contra hr
    exact h (if_neg hr)
  cases h with
  | hlt => simp at hne
  | prn => simp at hne
  | ldi _ _ ha | mul _ ha _ | add _ ha _ =>
    obtain rfl := State.eq_of_reg_setReg_ne (by simpa using hne)
    exact .inl ⟨_, _, rfl, rfl, by simp, ha⟩
  | push | call =>
    exact .inr ⟨_, rfl, by simp, hsp (by simpa [State.reg_pushByte] using hne)⟩
  | ret => exact .inr ⟨_, rfl, by simp, hsp (u := s) (by simpa using hne)⟩
  | pop _ ha =>
    by_cases hr : r = 7
    · exact .inr ⟨_, rfl, by simp, hr⟩
    · obtain rfl := State.eq_of_reg_setReg_ne (by simpa [hr] using hne)
      exact .inl ⟨_, _, rfl, rfl, by simp, ha⟩

/-- Settles O26: a fault writes no register, and a completed instruction only those of its row. -/
theorem registersChangeOnlyWhereWritten : Obligations.RegistersChangeOnlyWhereWritten := by
  intro s t r h hne
  obtain ⟨-, ⟨i, rest, hd, hx⟩ | ⟨e, -, rfl⟩⟩ := step_cases h
  · obtain ⟨b, -, rfl⟩ | ⟨a, -, -, rfl⟩ | hdone := exec_cases hx
    · exact absurd (State.reg_takeFault ..) hne
    · exact absurd (State.reg_takeFault ..) hne
    · have hbyte {k : Nat} {b : Byte} (hb : (encode i)[k]? = some b) := byteAt_of_decode_fetchWindow hd hb
      obtain ⟨op, a, hop, ha, hmem, hr⟩ | ⟨op, hop, hmem, hr⟩ := hdone.reg_changes hne
      · exact .inl ⟨hbyte hop ▸ hmem, hbyte ha ▸ hr⟩
      · exact .inr ⟨hbyte hop ▸ hmem, hr⟩
  · exact absurd (State.reg_takeDecodeFault ..) hne

/-! ## Reset -/

/-- The cells that a list of entries over a range of addresses reads as. -/
theorem Memory.get_flatMap_entry (f : Nat → Byte) (k n x : Nat) :
    Memory.get ((List.range' k n).flatMap fun a => Memory.entry a (f a)) x =
      if k ≤ x ∧ x < k + n then f x else Config.unlistedByte := by
  induction n generalizing k with
  | zero => simp [Memory.get]
  | succ n ih =>
    rw [List.range'_succ, List.flatMap_cons, Memory.get_entry_append, ih]
    by_cases hx : x = k
    · subst hx
      by_cases hv : f x = Config.unlistedByte <;> simp [hv]
    · rw [if_neg hx]
      exact if_congr (by omega) rfl rfl

theorem Memory.get_boot (initMem : Nat → Byte) (image : List Byte) {x : Nat} (hx : x < 256) :
    (Memory.boot initMem image).get x = resetByte initMem image x := by
  rw [Memory.boot, List.range_eq_range', Memory.get_flatMap_entry, if_pos ⟨Nat.zero_le x, by simpa using hx⟩]

theorem resetByte_of_lt (initMem : Nat → Byte) {image : List Byte} {x : Nat} (h : x < image.length) :
    resetByte initMem image x = image[x] := by simp [resetByte, h]

theorem resetByte_of_ge (initMem : Nat → Byte) {image : List Byte} {x : Nat} (h : image.length ≤ x) :
    resetByte initMem image x = initMem x := by simp [resetByte, h]

theorem bootRegs_get (initRegs : Fin 7 → Byte) {n : Fin 7} {r : Reg} (h : r.val = n.val) :
    (bootRegs initRegs).get r = initRegs n := by
  obtain rfl : r = n.castSucc := Fin.ext h
  fin_cases n <;> rfl

theorem State.construct_of_le (initRegs : Fin 7 → Byte) (initMem : Nat → Byte) {image : List Byte}
    (h : image.length ≤ 256) : State.construct initRegs initMem image =
      some { State.reset with mem := Memory.boot initMem image, regs := bootRegs initRegs } := if_pos h

theorem State.construct_of_gt (initRegs : Fin 7 → Byte) (initMem : Nat → Byte) {image : List Byte}
    (h : 256 < image.length) : State.construct initRegs initMem image = none := if_neg (Nat.not_le.2 h)

/-- Settles O32: cell by cell from what the booted memory reads as, register by register from the boot registers. -/
theorem constructGivesResetState : Obligations.ConstructGivesResetState := by
  refine fun initRegs initMem image => ⟨fun hle => ⟨_, State.construct_of_le initRegs initMem hle, ?_, ?_, ?_,
    rfl, rfl, rfl, rfl, rfl, rfl, rfl⟩, State.construct_of_gt initRegs initMem⟩
  · intro x hx
    exact (Memory.get_boot initMem image (by omega)).trans (resetByte_of_lt initMem hx)
  · intro x hge hx
    exact (Memory.get_boot initMem image hx).trans (resetByte_of_ge initMem hge)
  · intro n r hr
    exact bootRegs_get initRegs hr

/-- Where every cell holds what an unlisted one reads as, the list is empty. -/
theorem Memory.boot_unlisted : Memory.boot (fun _ => Config.unlistedByte) [] = [] := by
  simp [Memory.boot, resetByte, Memory.entry]

/-- Settles O33: the booted memory lists no cell, and reset's halt record is that of a running machine. -/
theorem resetMeetsInvariant : Obligations.ResetMeetsInvariant := by
  constructor
  · rw [State.construct_of_le _ _ (image := []) (Nat.zero_le 256), Memory.boot_unlisted]
    rfl
  · exact ⟨Memory.wf_nil, Nat.zero_le 256, rfl, rfl, rfl⟩

/-! ## The status output -/

/-- Settles O25: by the rows of the table. -/
theorem haltCauseCodes : Obligations.HaltCauseCodes := by
  refine ⟨rfl, fun c => ?_⟩
  cases c with
  | none => decide
  | halt => decide
  | fault c => cases c <;> decide

end Sys2Proof.Machine

/-! PROOFS: memory (20_memory.md). First which bytes decoding looks at, what the list's reads say of its entries, and what
each operation makes of two machines that differ in one cell; then the obligations, each after the facts it needs. -/

/-! ## Which bytes decoding looks at -/

namespace Sys2Proof

theorem takeOne_fst_take (mk : Byte → Instr) (bs : List Byte) :
    (takeOne mk (bs.take 1)).map Prod.fst = (takeOne mk bs).map Prod.fst := by
  cases bs <;> simp [takeOne, Except.map]

theorem takeTwo_fst_take (mk : Byte → Byte → Instr) (bs : List Byte) :
    (takeTwo mk (bs.take 2)).map Prod.fst = (takeTwo mk bs).map Prod.fst := by
  rcases bs with _ | ⟨a, _ | ⟨b, bs⟩⟩ <;> simp [takeTwo, Except.map]

/-- A row asks for no byte past the operands it declares (40_sequencer.md R83). -/
theorem decodeOperands_fst_take (o : Opcode) (bs : List Byte) :
    (decodeOperands o (bs.take (opCount o.byte))).map Prod.fst = (decodeOperands o bs).map Prod.fst := by
  rw [Opcode.count_byte]
  cases o with
  | hlt | ret => rfl
  | prn | push | pop | call => exact takeOne_fst_take _ bs
  | ldi | mul | add => exact takeTwo_fst_take _ bs

/-- The answer depends on the opcode byte and on the operand bytes it declares, present or missing. -/
theorem decode_cons_fst_congr {op : Byte} {bs bs' : List Byte} (h : bs'.take (opCount op) = bs.take (opCount op)) :
    (decode (op :: bs')).map Prod.fst = (decode (op :: bs)).map Prod.fst := by
  cases ho : Opcode.ofByte op with
  | none => rw [decode_cons_unknown ho, decode_cons_unknown ho]
  | some o =>
    obtain rfl := Opcode.ofByte_eq_some.1 ho
    rw [decode_cons_row, decode_cons_row, ← decodeOperands_fst_take o bs', h, decodeOperands_fst_take]

end Sys2Proof

namespace Sys2Proof.Machine

/-! ## What the list's reads say of its entries -/

/-- A cell is listed with the byte it holds, exactly where that is not what an unlisted cell reads as. -/
theorem Memory.mem_iff_get {m : Memory} (hm : m.wf) {a : Nat} {v : Byte} :
    (a, v) ∈ m ↔ v ≠ Config.unlistedByte ∧ m.get a = v := by
  induction m with
  | nil => simpa [Memory.get] using fun h e => h e.symm
  | cons c m ih =>
    obtain ⟨b, w⟩ := c
    obtain ⟨hlt, ⟨-, hw⟩, hm'⟩ := Memory.wf_cons.1 hm
    by_cases hab : a = b
    · subst hab
      have hnot : (a, v) ∉ m := fun h => lt_irrefl a (hlt _ h)
      simp only [List.mem_cons, Prod.mk.injEq, true_and, hnot, or_false, Memory.get, if_true]
      exact ⟨fun h => ⟨h ▸ hw, h.symm⟩, fun h => h.2.symm⟩
    · simpa [hab, Memory.get] using ih hm'

theorem Memory.get_of_ge {m : Memory} (hm : m.wf) {a : Nat} (ha : 256 ≤ a) : m.get a = Config.unlistedByte := by
  by_contra hne
  exact Nat.not_lt.2 ha (hm.2 _ ((Memory.mem_iff_get hm).2 ⟨hne, rfl⟩)).1

/-- Settles O31: the two lists have the same entries, in the same rising order. -/
theorem canonicalMemoryIsDeterminedByReads : Obligations.CanonicalMemoryIsDeterminedByReads := by
  intro m m' hm hm' hread
  have hget (a : Nat) : m.get a = m'.get a := by
    obtain ha | ha := lt_or_ge a 256
    · exact hread a ha
    · rw [Memory.get_of_ge hm ha, Memory.get_of_ge hm' ha]
  have : Std.Irrefl fun c d : Host.Cell => c.1 < d.1 := ⟨fun c => lt_irrefl c.1⟩
  refine hm.1.eq_of_mem_iff hm'.1 fun (a, v) => ?_
  rw [Memory.mem_iff_get hm, Memory.mem_iff_get hm', hget]

/-! ## What a step writes -/

@[simp] theorem State.byteAt_takeDecodeFault (s : State) (e : DecodeError) (x : Nat) :
    (s.takeDecodeFault e).byteAt x = s.byteAt x := by
  cases e <;> rfl

/-- The write row of 20_memory.md R42, over the bytes of the instruction. -/
theorem Completes.byteAt_changes {i : Instr} {s t : State} (h : Completes i s t) {x : Nat}
    (hne : t.byteAt x ≠ s.byteAt x) :
    ∃ op, (encode i)[0]? = some op ∧ op ∈ [0x45#8, 0x50#8] ∧ x = (s.sp - 1#8).toNat := by
  have hpush {v : State → Byte} (h : (s.pushByte v).byteAt x ≠ s.byteAt x) : x = (s.sp - 1#8).toNat := by
    by_contra hx
    exact h (State.byteAt_pushByte_of_ne s v hx)
  cases h with
  | push | call => exact ⟨_, rfl, by simp, hpush (by simpa using hne)⟩
  | _ => simp at hne

/-- Settles O27: a fault writes no cell, and a completed instruction only that of its row. -/
theorem memoryChangesOnlyByPushAndCall : Obligations.MemoryChangesOnlyByPushAndCall := by
  intro s t x h hne
  obtain ⟨-, ⟨i, rest, hd, hx⟩ | ⟨e, -, rfl⟩⟩ := step_cases h
  · obtain ⟨b, -, rfl⟩ | ⟨a, -, -, rfl⟩ | hdone := exec_cases hx
    · exact absurd (State.byteAt_takeFault ..) hne
    · exact absurd (State.byteAt_takeFault ..) hne
    · obtain ⟨op, hop, hmem, haddr⟩ := hdone.byteAt_changes hne
      exact ⟨byteAt_of_decode_fetchWindow hd hop ▸ hmem, haddr⟩
  · exact absurd (State.byteAt_takeDecodeFault ..) hne

/-! ## The fetch after a store -/

theorem Memory.window_getElem? (m : Memory) (a n k : Nat) :
    (m.window a n)[k]? = if k < n ∧ a + k < 256 then some (m.get (a + k)) else none := by
  have hlen : (m.window a n).length = min n (256 - a) := Memory.length_window m a n
  split
  · have hk : (m.window a n)[k]? = some (m.window a n)[k] := List.getElem?_eq_getElem (by omega)
    rw [hk, Memory.get_of_window_getElem? hk]
  · exact List.getElem?_eq_none (by omega)

/-- A fetch reads memory as it stands, at the opcode's and at both operands' places (20_memory.md R49). -/
theorem fetchWindow_getElem?_of_lt (s : State) {k : Nat} (hk : k < 3) (hlt : s.pc.toNat + k < 256) :
    s.fetchWindow[k]? = some (s.byteAt (s.pc.toNat + k)) := by
  rw [State.fetchWindow, Memory.window_getElem?, if_pos ⟨hk, hlt⟩]
  rfl

theorem fetchWindow_eq_cons {s : State} (hlt : s.pc.toNat < 256) :
    s.fetchWindow = s.byteAt s.pc.toNat :: s.mem.window (s.pc.toNat + 1) 2 := by
  rw [State.fetchWindow, Memory.window, Memory.read?_of_lt s.mem hlt]
  rfl

/-- What the fetch after a push reads at the place pushed to. -/
theorem fetchWindow_getElem?_of_pushed {s t : State} (hs : s.mem.wf) {v : State → Byte}
    (ht : t.mem = (s.pushByte v).mem) {k : Nat} (hk : k < 3) (haddr : t.pc.toNat + k = (s.sp - 1#8).toNat) :
    t.fetchWindow[k]? = some (v s.decSp) := by
  have hread : t.byteAt (s.sp - 1#8).toNat = v s.decSp := by
    rw [State.byteAt, ht]
    exact State.byteAt_pushByte_self hs v
  rw [fetchWindow_getElem?_of_lt t hk (haddr ▸ (s.sp - 1#8).isLt), haddr, hread]

/-- The rows of `Completes` are what `exec` answers where no check fails. -/
theorem Completes.exec_eq {i : Instr} {s t : State} (h : Completes i s t) : exec i s = .next t := by
  cases h with
  | hlt | ret => rfl
  | ldi _ _ ha | prn _ ha | push _ ha | pop _ ha => exact withReg_of_eq ha s _
  | mul _ ha hb => exact (withReg_of_eq ha s _).trans ((withReg_of_eq hb s _).trans (aluApply_mul ..))
  | add _ ha hb => exact (withReg_of_eq ha s _).trans ((withReg_of_eq hb s _).trans (aluApply_add ..))
  | call _ ha hpc => exact (withReg_of_eq ha s _).trans (if_neg (Nat.not_le.2 hpc))

theorem Completes.eq_of_exec {i : Instr} {s t u : State} (h : Completes i s u) (hx : exec i s = .next t) : t = u :=
  Host.Outcome.next.inj (hx.symm.trans h.exec_eq)

/-- Settles O29: both instructions leave the memory of a push, and the fetch reads that memory. -/
theorem nextFetchSeesStoredByte : Obligations.NextFetchSeesStoredByte := by
  intro a r s t k hs ha hk haddr
  constructor
  · intro hx
    obtain rfl := (Completes.push s ha).eq_of_exec hx
    rw [fetchWindow_getElem?_of_pushed hs (State.advance_mem ..) hk haddr, State.regs_decSp]
  · intro hpc hx
    obtain rfl := (Completes.call s ha hpc).eq_of_exec hx
    exact fetchWindow_getElem?_of_pushed (v := fun _ => low8 (returnAddress s)) hs (by simp) hk haddr

/-! ## Two machines that differ in one cell -/

/-- `DifferOnlyAt x s s'`: the machines have canonical memories, which read alike but at `x`, and agree in all else. -/
inductive DifferOnlyAt (x : Nat) (s : State) : State → Prop where
  | intro {m : Memory} (hs : s.mem.wf) (hm : m.wf) (hget : ∀ y, y ≠ x → m.get y = s.mem.get y) :
      DifferOnlyAt x s { s with mem := m }

/-- Both meanings answer a next state, and these differ only at `x`. -/
inductive NextsDifferOnlyAt (x : Nat) : Result → Result → Prop where
  | next {t t' : State} (h : DifferOnlyAt x t t') : NextsDifferOnlyAt x (.next t) (.next t')

theorem NextsDifferOnlyAt.exists_next {x : Nat} {t : State} {o : Result} (h : NextsDifferOnlyAt x (.next t) o) :
    ∃ t', o = .next t' ∧ DifferOnlyAt x t t' := by
  cases h with | next h => exact ⟨_, rfl, h⟩

section Operations

variable {x : Nat} {s s' : State} (h : DifferOnlyAt x s s')
include h

/-! Reads of anything but the cell at `x` give the same. -/

theorem DifferOnlyAt.eq_withMem : s' = { s with mem := s'.mem } := by cases h; rfl
theorem DifferOnlyAt.reg_eq (r : Reg) : s'.reg r = s.reg r := by cases h; rfl
theorem DifferOnlyAt.pc_eq : s'.pc = s.pc := by cases h; rfl
theorem DifferOnlyAt.run_eq : s'.run = s.run := by cases h; rfl
theorem DifferOnlyAt.byteAt_eq {y : Nat} (hy : y ≠ x) : s'.byteAt y = s.byteAt y := by
  cases h with | intro _ _ hget => exact hget y hy

/-! Writes keep the two machines alike. -/

theorem DifferOnlyAt.setReg (r : Reg) (v : Byte) : DifferOnlyAt x (s.setReg r v) (s'.setReg r v) := by
  cases h with | intro hs hm hget => exact .intro hs hm hget

theorem DifferOnlyAt.setPc (w : Word9) : DifferOnlyAt x (s.setPc w) (s'.setPc w) := by
  cases h with | intro hs hm hget => exact .intro hs hm hget

theorem DifferOnlyAt.emit (v : Byte) : DifferOnlyAt x (s.emit v) (s'.emit v) := by
  cases h with | intro hs hm hget => exact .intro hs hm hget

theorem DifferOnlyAt.halt (c : HaltCause) : DifferOnlyAt x (s.halt c) (s'.halt c) := by
  cases h with | intro hs hm hget => exact .intro hs hm hget

theorem DifferOnlyAt.takeFault (c : FaultCause) (w : Word9) : DifferOnlyAt x (s.takeFault c w) (s'.takeFault c w) := by
  cases h with | intro hs hm hget => exact .intro hs hm hget

/-- A store at `x` leaves both the byte stored, and a store elsewhere leaves what they hold at `x`. -/
theorem DifferOnlyAt.store (a v : Byte) : DifferOnlyAt x (s.store a v) (s'.store a v) := by
  cases h with
  | @intro m hs hm hget =>
    refine .intro (State.wf_store hs a v) (Memory.wf_put hm a.isLt v) fun y hy => ?_
    by_cases hya : y = a.toNat
    · rw [hya, Memory.get_put_self hm, State.store_mem, Memory.get_put_self hs]
    · rw [Memory.get_put_of_ne m v hya, State.store_mem, Memory.get_put_of_ne s.mem v hya, hget y hy]

theorem DifferOnlyAt.advance (op : Byte) (w : Word9) : DifferOnlyAt x (s.advance op w) (s'.advance op w) := by
  rw [State.advance_eq, State.advance_eq, h.pc_eq]
  exact h.setPc _

theorem DifferOnlyAt.decSp : DifferOnlyAt x s.decSp s'.decSp := by
  rw [State.decSp, State.decSp, State.sp, State.sp, h.reg_eq]
  exact h.setReg _ _

theorem DifferOnlyAt.incSp : DifferOnlyAt x s.incSp s'.incSp := by
  rw [State.incSp, State.incSp, State.sp, State.sp, h.reg_eq]
  exact h.setReg _ _

theorem DifferOnlyAt.pushByte {v v' : State → Byte} (hv : v' s'.decSp = v s.decSp) :
    DifferOnlyAt x (s.pushByte v) (s'.pushByte v') := by
  rw [State.pushByte, State.pushByte, hv, State.sp, State.sp, h.decSp.reg_eq]
  exact h.decSp.store _ _

theorem DifferOnlyAt.returnAddress_eq : returnAddress s' = returnAddress s := by
  rw [returnAddress, returnAddress, h.pc_eq]

theorem DifferOnlyAt.topByte_eq (hx : x ≠ s.sp.toNat) : s'.topByte = s.topByte := by
  rw [State.topByte, State.topByte, State.load, State.load, State.sp, State.sp, h.reg_eq]
  exact h.byteAt_eq hx.symm

theorem DifferOnlyAt.takeDecodeFault (e : DecodeError) :
    DifferOnlyAt x (s.takeDecodeFault e) (s'.takeDecodeFault e) := by
  cases e with
  | missingByte k => rw [State.takeDecodeFault, State.takeDecodeFault, h.pc_eq]; exact h.takeFault _ _
  | unknownOpcode op => exact h.takeFault _ _

theorem DifferOnlyAt.withReg (b : Byte) {k k' : Reg → Result} (hk : ∀ r, NextsDifferOnlyAt x (k r) (k' r)) :
    NextsDifferOnlyAt x (withReg b s k) (withReg b s' k') := by
  obtain hb | hb := lt_or_ge b.toNat 8
  · rw [withReg_of_eq (r := ⟨b.toNat, hb⟩) rfl, withReg_of_eq (r := ⟨b.toNat, hb⟩) rfl]
    exact hk _
  · rw [withReg_of_ge hb, withReg_of_ge hb]
    exact .next (h.takeFault _ _)

theorem DifferOnlyAt.aluApply (op : Byte) (ra rb : Reg) :
    NextsDifferOnlyAt x (aluApply op ra rb s) (aluApply op ra rb s') := by
  rw [Machine.aluApply, Machine.aluApply, h.reg_eq, h.reg_eq, h.pc_eq]
  split
  · exact .next ((h.setReg ra _).advance op _)
  · exact .next (h.takeFault _ _)

/-! ## One step of both -/

/-- The data reads of 20_memory.md R42: no instruction but POP and RET reads a cell, and these read the one at `sp`. -/
theorem DifferOnlyAt.exec {i : Instr}
    (hx : ∀ op, (encode i)[0]? = some op → op ∈ [0x46#8, 0x11#8] → x ≠ s.sp.toNat) :
    NextsDifferOnlyAt x (exec i s) (exec i s') := by
  cases i with
  | hlt => exact .next (h.pc_eq ▸ (h.advance _ _).halt _)
  | ldi a imm => exact h.withReg a fun r => .next (h.pc_eq ▸ (h.setReg r _).advance _ _)
  | prn a =>
    refine h.withReg a fun r => .next ?_
    rw [h.reg_eq, h.pc_eq]
    exact (h.emit _).advance _ _
  | mul a b | add a b => exact h.withReg a fun ra => h.withReg b fun rb => h.aluApply _ ra rb
  | push a =>
    refine h.withReg a fun r => .next ?_
    rw [h.pc_eq]
    exact (h.pushByte (h.decSp.reg_eq r)).advance _ _
  | pop a =>
    refine h.withReg a fun r => .next ?_
    rw [h.topByte_eq (hx _ rfl (by simp)), h.pc_eq]
    exact (h.setReg r _).incSp.advance _ _
  | call a =>
    refine h.withReg a fun r => ?_
    rw [h.returnAddress_eq, h.pc_eq]
    split
    · exact .next (h.takeFault _ _)
    · have hpush := h.pushByte (v := fun _ => low8 (s.pc + 2#9)) (v' := fun _ => low8 (s.pc + 2#9)) rfl
      exact .next (hpush.reg_eq r ▸ (hpush.setPc _).advance _ _)
  | ret =>
    refine .next ?_
    rw [h.topByte_eq (hx _ rfl (by simp)), h.pc_eq]
    exact (h.setPc _).incSp.advance _ _

/-- The fetch hands to `exec` nothing of a cell past the declared operands (40_sequencer.md R83). -/
theorem DifferOnlyAt.decode_fetchWindow_fst
    (hx : ∀ k, k ≤ opCount (s.byteAt s.pc.toNat) → x ≠ s.pc.toNat + k) :
    (decode s'.fetchWindow).map Prod.fst = (decode s.fetchWindow).map Prod.fst := by
  obtain hge | hlt := le_or_gt 256 s.pc.toNat
  · rw [fetchWindow_of_pc_ge hge, fetchWindow_of_pc_ge (h.pc_eq ▸ hge)]
  · have hop : s'.byteAt s.pc.toNat = s.byteAt s.pc.toNat := h.byteAt_eq (hx 0 (Nat.zero_le _)).symm
    rw [fetchWindow_eq_cons hlt, fetchWindow_eq_cons (h.pc_eq ▸ hlt), h.pc_eq, hop]
    refine decode_cons_fst_congr (List.ext_getElem? fun k => ?_)
    rw [List.getElem?_take, List.getElem?_take]
    split
    next hk =>
      have hbyte : s'.mem.get (s.pc.toNat + 1 + k) = s.mem.get (s.pc.toNat + 1 + k) :=
        h.byteAt_eq (by have := hx (1 + k) (by omega); omega)
      rw [Memory.window_getElem?, Memory.window_getElem?, hbyte]
    next => rfl

end Operations

theorem step_of_decode_fst_ok {s : State} {i : Instr} (hrun : s.run = .running)
    (hd : (decode s.fetchWindow).map Prod.fst = .ok i) : step s = exec i s := by
  cases hw : decode s.fetchWindow with
  | ok d => rw [hw] at hd; cases hd; simp [step, hrun, hw]
  | error e => rw [hw] at hd; cases hd

theorem step_of_decode_fst_error {s : State} {e : DecodeError} (hrun : s.run = .running)
    (hd : (decode s.fetchWindow).map Prod.fst = .error e) : step s = .next (s.takeDecodeFault e) := by
  cases hw : decode s.fetchWindow with
  | ok d => rw [hw] at hd; cases hd
  | error e => rw [hw] at hd; cases hd; simp [step, hrun, hw]

/-- A step of both, where `x` is neither a byte of the instruction nor, for POP and RET, the stack's top. -/
theorem DifferOnlyAt.step {x : Nat} {s s' : State} (h : DifferOnlyAt x s s') (hrun : s.run = .running)
    (hfetch : ∀ k, k ≤ opCount (s.byteAt s.pc.toNat) → x ≠ s.pc.toNat + k)
    (hdata : s.byteAt s.pc.toNat ∈ [0x46#8, 0x11#8] → x ≠ s.sp.toNat) :
    NextsDifferOnlyAt x (step s) (step s') := by
  have hrun' : s'.run = .running := h.run_eq.trans hrun
  have hdecode := h.decode_fetchWindow_fst hfetch
  cases hd : decode s.fetchWindow with
  | ok d =>
    obtain ⟨i, rest⟩ := d
    have hfst := congrArg (Except.map Prod.fst) hd
    rw [step_of_decode_fst_ok hrun hfst, step_of_decode_fst_ok hrun' (hdecode.trans hfst)]
    exact h.exec fun op hop hmem => hdata (byteAt_of_decode_fetchWindow hd hop ▸ hmem)
  | error e =>
    have hfst := congrArg (Except.map Prod.fst) hd
    rw [step_of_decode_fst_error hrun hfst, step_of_decode_fst_error hrun' (hdecode.trans hfst)]
    exact .next (h.takeDecodeFault e)

/-- Settles O30: both machines decode the same instruction, and every operation it is made of keeps them alike. -/
theorem stepReadsOnlyItsOwnCells : Obligations.StepReadsOnlyItsOwnCells := by
  intro s s' t x hs hs' heq hget hfetch hdata hstep
  have h : DifferOnlyAt x s s' := heq ▸ .intro hs hs' hget
  obtain ⟨t', hstep', ht⟩ := (hstep ▸ h.step (step_cases hstep).1 hfetch hdata).exists_next
  exact ⟨t', hstep', ht.eq_withMem, fun _ => ht.byteAt_eq⟩

end Sys2Proof.Machine

/-! PROOFS: encoding (30_encoding.md). First the round trip of decoder and encoder, the bytes of the opcode map, and what each
pass over an image line does to the digits of a byte; then the obligations, each after the facts it needs. -/

/-! ## The round trip -/

namespace Sys2Proof

/-- Each row takes its operand bytes, whatever they are, and hands the rest on. -/
theorem decode_encode_append (i : Instr) (rest : List Byte) : decode (encode i ++ rest) = .ok (i, rest) := by
  cases i with
  | hlt => exact decode_cons_row .hlt rest
  | ldi a imm => exact decode_cons_row .ldi (a :: imm :: rest)
  | prn a => exact decode_cons_row .prn (a :: rest)
  | mul a b => exact decode_cons_row .mul (a :: b :: rest)
  | add a b => exact decode_cons_row .add (a :: b :: rest)
  | push a => exact decode_cons_row .push (a :: rest)
  | pop a => exact decode_cons_row .pop (a :: rest)
  | call a => exact decode_cons_row .call (a :: rest)
  | ret => exact decode_cons_row .ret rest

/-- Settles O1: the decoder inverts the encoder, and what it decodes begins with the encoding of its answer. -/
theorem decodeAcceptsExactlyTheEncodings : Obligations.DecodeAcceptsExactlyTheEncodings := by
  intro bs rest i
  constructor
  · exact eq_encode_append_of_decode
  · rintro rfl
    exact decode_encode_append i rest

/-! ## The length of an instruction -/

theorem encodedLength (i : Instr) : Laws.EncodedLength.Statement i := by
  cases i with
  | hlt => exact Laws.EncodedLength.hlt
  | ldi a imm => exact Laws.EncodedLength.ldi a imm
  | prn a => exact Laws.EncodedLength.prn a
  | mul a b => exact Laws.EncodedLength.mul a b
  | add a b => exact Laws.EncodedLength.add a b
  | push a => exact Laws.EncodedLength.push a
  | pop a => exact Laws.EncodedLength.pop a
  | call a => exact Laws.EncodedLength.call a
  | ret => exact Laws.EncodedLength.ret

/-- An instruction is decoded from a byte of the map and takes up the length which that byte gives (30_encoding.md R62). -/
theorem length_of_decode_cons {op : Byte} {bs rest : List Byte} {i : Instr} (h : decode (op :: bs) = .ok (i, rest)) :
    ∃ o : Opcode, op = o.byte ∧ (op :: bs).length = opLength op + rest.length := by
  have hbs := eq_encode_append_of_decode h
  obtain ⟨o, operands, hcons, hlen⟩ := encodedLength i
  obtain rfl : op = o.byte := by
    rw [hcons, List.cons_append] at hbs
    exact (List.cons.inj hbs).1
  exact ⟨o, rfl, by rw [hbs, List.length_append, hlen]⟩

/-- The operand count 3 is in no row (30_encoding.md R62). -/
theorem Opcode.count_byte_lt (o : Opcode) : opCount o.byte < 3 := by
  rw [Opcode.count_byte]
  cases o <;> decide

/-- Settles O3: a row's byte gives a count below 3, so a byte with the count 3 is in no row. -/
theorem opcodeByteDecidesLength : Obligations.OpcodeByteDecidesLength := by
  intro op bs rest i
  rw [← opCount_eq_div]
  constructor
  · intro h
    obtain ⟨o, rfl, hlen⟩ := length_of_decode_cons h
    exact ⟨hlen, o.count_byte_lt⟩
  · intro hcount
    refine decode_cons_unknown (Opcode.ofByte_eq_none.2 fun o ho => ?_) bs
    exact o.count_byte_lt.ne (ho ▸ hcount)

end Sys2Proof

namespace Sys2Proof.Machine

/-! ## The bytes of the opcode map -/

/-- The nine bytes of 30_encoding.md R68 are the rows' bytes. -/
theorem mem_specOpcodes {op : Byte} : op ∈ specOpcodes ↔ ∃ o : Opcode, op = o.byte := by
  constructor
  · intro h
    obtain ⟨o, -, ho⟩ := List.mem_map.1 (show op ∈ Opcode.all.map Opcode.byte from h)
    exact ⟨o, ho.symm⟩
  · rintro ⟨o, rfl⟩
    cases o <;> decide

theorem ofByte_eq_none_iff_notMem_specOpcodes {op : Byte} : Opcode.ofByte op = none ↔ op ∉ specOpcodes := by
  rw [Opcode.ofByte_eq_none, mem_specOpcodes, not_exists]

/-- Settles O4: a byte in no row is no instruction whatever follows it, and the step takes the fault of that. -/
theorem otherBytesAreIllegalOpcodes : Obligations.OtherBytesAreIllegalOpcodes := by
  refine ⟨by decide +kernel, fun op s hop ⟨hrun, hpc, hbyte⟩ => ?_⟩
  have hd : decode s.fetchWindow = .error (.unknownOpcode op) := by
    rw [fetchWindow_eq_cons hpc, hbyte, decode_cons_unknown (ofByte_eq_none_iff_notMem_specOpcodes.2 hop)]
  exact ⟨_, step_of_decode_fst_error hrun (congrArg (Except.map Prod.fst) hd), haltsWith_takeFault s _ _⟩

/-- Settles O2: each row is the round trip of its instruction, and its fields are those of its byte. -/
theorem opcodeMapDecodes : Obligations.OpcodeMapDecodes := by
  refine ⟨fun a b rest => ?_, by decide, by decide, by decide⟩
  exact ⟨decode_encode_append .hlt rest, decode_encode_append (.ldi a b) rest, decode_encode_append (.prn a) rest,
    decode_encode_append (.mul a b) rest, decode_encode_append (.add a b) rest, decode_encode_append (.push a) rest,
    decode_encode_append (.pop a) rest, decode_encode_append (.call a) rest, decode_encode_append .ret rest⟩

/-! ## The lines of an image -/

theorem stripComment_append {l : List Char} (h : '#' ∉ l) (m : List Char) :
    stripComment (l ++ m) = l ++ stripComment m := by
  induction l with
  | nil => rfl
  | cons c l ih =>
    obtain ⟨hc, hl⟩ := List.ne_and_not_mem_of_not_mem_cons h
    simp [stripComment, hc.symm, ih hl]

theorem dropWhile_isBlank_eq_self {l : List Char} (h : ∀ c ∈ l, isBlank c = false) : l.dropWhile isBlank = l := by
  cases l with
  | nil => rfl
  | cons c l => simp [h c]

/-- Blanks after a text that has none are no part of it. -/
theorem trimBlanks_append {l blanks : List Char} (hne : l ≠ []) (hl : ∀ c ∈ l, isBlank c = false)
    (hb : ∀ c ∈ blanks, isBlank c = true) : trimBlanks (l ++ blanks) = l := by
  have hfront : (l ++ blanks).dropWhile isBlank = l ++ blanks := by
    rw [List.dropWhile_append, dropWhile_isBlank_eq_self hl, if_neg (by simpa using hne)]
  have hback : (blanks.reverse ++ l.reverse).dropWhile isBlank = l.reverse := by
    rw [List.dropWhile_append_of_pos (by simpa using hb), dropWhile_isBlank_eq_self (by simpa using hl)]
  rw [trimBlanks, hfront, List.reverse_append, hback, List.reverse_reverse]

theorem binDigit_ite (x : Bool) : binDigit (if x then '1' else '0') = some x.toNat := by cases x <;> rfl

/-- One more digit doubles the value and adds that digit's. -/
theorem binValue_append_digit (acc : Nat) (cs : List Char) (c : Char) :
    binValue acc (cs ++ [c]) = (binValue acc cs).bind fun v => (binDigit c).map (2 * v + ·) := by
  induction cs generalizing acc with
  | nil => cases h : binDigit c <;> simp [binValue, h]
  | cons d cs ih => cases h : binDigit d <;> simp [binValue, h, ih]

/-- The first `n` digits of a byte are the value of its upper `n` bits. -/
theorem binValue_take_digits (b : Byte) {n : Nat} (hn : n ≤ 8) :
    binValue 0 ((List.range n).map fun k => if b.getLsbD (7 - k) then '1' else '0') =
      some (b.toNat / 2 ^ (8 - n)) := by
  induction n with
  | zero => simp [binValue, Nat.div_eq_of_lt b.isLt]
  | succ n ih =>
    have hbit : (b.getLsbD (7 - n)).toNat = b.toNat / 2 ^ (7 - n) % 2 := Nat.toNat_testBit ..
    have hupper : b.toNat / 2 ^ (8 - n) = b.toNat / 2 ^ (7 - n) / 2 := by
      rw [show 8 - n = 7 - n + 1 by omega, Nat.pow_succ, Nat.div_div_eq_div_mul]
    rw [List.range_succ, List.map_append, List.map_singleton, binValue_append_digit, ih (by omega), binDigit_ite, hbit,
      hupper, Option.bind_some, Option.map_some, Nat.div_add_mod, show 8 - (n + 1) = 7 - n by omega]

theorem binValue_binDigits (b : Byte) : binValue 0 (binDigits b) = some b.toNat := by
  rw [binDigits, binValue_take_digits b le_rfl, Nat.sub_self, Nat.pow_zero, Nat.div_one]

theorem length_binDigits (b : Byte) : (binDigits b).length = 8 := by simp [binDigits]

theorem eq_zero_or_one_of_mem_binDigits {b : Byte} {c : Char} (h : c ∈ binDigits b) : c = '0' ∨ c = '1' := by
  obtain ⟨k, -, rfl⟩ := List.mem_map.1 h
  split
  · exact .inr rfl
  · exact .inl rfl

theorem hash_notMem_binDigits (b : Byte) : '#' ∉ binDigits b := fun h => by
  obtain h | h := eq_zero_or_one_of_mem_binDigits h <;> exact absurd h (by decide)

theorem isBlank_of_mem_binDigits {b : Byte} {c : Char} (h : c ∈ binDigits b) : isBlank c = false := by
  obtain rfl | rfl := eq_zero_or_one_of_mem_binDigits h <;> rfl

/-- A line whose text before the comment is a byte's digits and then only blanks gives that byte. -/
theorem lineByte_binDigits_append (b : Byte) {tail : List Char} (h : ∀ c ∈ stripComment tail, isBlank c = true) :
    lineByte (binDigits b ++ tail) = some b := by
  have hne : binDigits b ≠ [] := List.ne_nil_of_length_eq_add_one (length_binDigits b)
  have hlit : trimBlanks (stripComment (binDigits b ++ tail)) = binDigits b := by
    rw [stripComment_append (hash_notMem_binDigits b), trimBlanks_append hne (fun _ => isBlank_of_mem_binDigits) h]
  simp [lineByte, hlit, length_binDigits, binValue_binDigits]

/-- Settles O36: the tail is empty or a blank and a comment, and a comment line has no text before its comment. -/
theorem imageLineGivesItsByte : Obligations.ImageLineGivesItsByte := by
  intro b comment
  refine ⟨?_, lineByte_binDigits_append b (by simp [stripComment, isBlank]), rfl, rfl⟩
  simpa using lineByte_binDigits_append b (tail := []) (by simp [stripComment])

end Sys2Proof.Machine

/-! PROOFS: the sequencer (40_sequencer.md). First when a step has an answer and what the fetch makes it, then the faults
of the operand check, the advance of `pc` and how a reachable machine stands; the obligations each after the facts it
needs. -/

namespace Sys2Proof.Machine

/-! ## What a step answers -/

theorem step_of_halted {s : State} (hrun : s.run = .halted) : step s = .fault .halted := by simp [step, hrun]

theorem step_of_decode_ok {s : State} {i : Instr} {rest : List Byte} (hrun : s.run = .running)
    (hd : decode s.fetchWindow = .ok (i, rest)) : step s = exec i s :=
  step_of_decode_fst_ok hrun (congrArg (Except.map Prod.fst) hd)

theorem step_of_decode_error {s : State} {e : DecodeError} (hrun : s.run = .running)
    (hd : decode s.fetchWindow = .error e) : step s = .next (s.takeDecodeFault e) :=
  step_of_decode_fst_error hrun (congrArg (Except.map Prod.fst) hd)

/-- Settles O6: the fetch answers the instruction, and a running machine executes it. -/
theorem stepRunsDecodedInstruction : Obligations.StepRunsDecodedInstruction :=
  fun _ _ _ hrun hd => step_of_decode_ok hrun hd

theorem exists_withReg_eq_next {b : Byte} {s : State} {k : Reg → Result} (hk : ∀ r, ∃ t, k r = .next t) :
    ∃ t, withReg b s k = .next t := by
  obtain ⟨r, -, heq⟩ | ⟨-, heq⟩ := withReg_cases b s k
  · rw [heq]; exact hk r
  · exact ⟨_, heq⟩

/-- Every instruction has a next state from every state: its faults are next states too (60_exceptions.md R146). -/
theorem exists_exec_eq_next (i : Instr) (s : State) : ∃ t, exec i s = .next t := by
  cases i with
  | hlt | ret => exact ⟨_, rfl⟩
  | ldi | prn | push | pop => exact exists_withReg_eq_next fun r => ⟨_, rfl⟩
  | mul => exact exists_withReg_eq_next fun ra => exists_withReg_eq_next fun rb => ⟨_, aluApply_mul ra rb s⟩
  | add => exact exists_withReg_eq_next fun ra => exists_withReg_eq_next fun rb => ⟨_, aluApply_add ra rb s⟩
  | call => exact exists_withReg_eq_next fun r => by split <;> exact ⟨_, rfl⟩

theorem exists_step_eq_next_of_running {s : State} (hrun : s.run = .running) : ∃ t, step s = .next t := by
  cases hd : decode s.fetchWindow with
  | ok d => rw [step_of_decode_ok hrun hd]; exact exists_exec_eq_next d.1 s
  | error e => exact ⟨_, step_of_decode_error hrun hd⟩

theorem run_eq_running_iff {s : State} : s.run = .running ↔ ∃ t, step s = .next t :=
  ⟨exists_step_eq_next_of_running, fun ⟨_, h⟩ => (step_cases h).1⟩

theorem run_eq_halted_iff {s : State} : s.run = .halted ↔ step s = .fault .halted := by
  refine ⟨step_of_halted, fun h => ?_⟩
  cases hrun : s.run with
  | halted => rfl
  | running =>
    obtain ⟨t, ht⟩ := exists_step_eq_next_of_running hrun
    cases h.symm.trans ht

/-- The machine constructed from an image is reset's, but for the memory and the registers (70_reset_and_hazards.md
R170). -/
theorem State.eq_of_construct {initRegs : Fin 7 → Byte} {initMem : Nat → Byte} {image : List Byte} {s : State}
    (h : State.construct initRegs initMem image = some s) :
    s = { State.reset with mem := Memory.boot initMem image, regs := bootRegs initRegs } := by
  obtain hle | hgt := le_or_gt image.length 256
  · rw [State.construct_of_le initRegs initMem hle] at h
    exact (Option.some.inj h).symm
  · rw [State.construct_of_gt initRegs initMem hgt] at h
    cases h

/-- Settles O5: a running machine's step is an instruction or a decode fault, and each of them has a next state. -/
theorem onlyHaltedMachinesHaveNoStep : Obligations.OnlyHaltedMachinesHaveNoStep := by
  refine ⟨fun initRegs initMem image s h => ?_, fun s => ⟨run_eq_halted_iff, run_eq_running_iff⟩⟩
  rw [State.eq_of_construct h]
  rfl

/-! ## HLT -/

theorem stepHalts_fetchRange_of_pc_ge {s : State} (hrun : s.run = .running) (hpc : 256 ≤ s.pc.toNat) :
    StepHalts .fetchRange s.pc s := by
  have hstep := step_of_decode_error hrun (e := .missingByte 0) (by rw [fetchWindow_of_pc_ge hpc, decode_nil])
  rw [State.takeDecodeFault, BitVec.add_zero] at hstep
  exact ⟨_, hstep, haltsWith_takeFault s _ _⟩

theorem fetchedAlone_of_decode {op : Byte} {i : Instr} (h : ∀ bs, decode (op :: bs) = .ok (i, bs)) :
    FetchedAlone op i := by
  refine ⟨fun s => stepHalts_fetchRange_of_pc_ge, fun s ⟨hrun, hpc, hbyte⟩ => ?_⟩
  have hd := h (s.mem.window (s.pc.toNat + 1) 2)
  rw [← hbyte, ← fetchWindow_eq_cons hpc] at hd
  exact step_of_decode_ok hrun hd

/-- The advance of an opcode whose sets-PC flag is clear (40_sequencer.md R87). -/
theorem State.pc_advance_of_clear (s : State) {op : Byte} (h : opSetsPc op = false) (w : Word9) :
    (s.advance op w).pc = w + BitVec.ofNat 9 (opLength op) := by simp [h]

/-- Settles O8: the advance writes `pc` alone, the halt the running flag and the cause alone. -/
theorem hltAdvancesThenHalts : Obligations.HltAdvancesThenHalts := by
  refine ⟨fun s => ⟨_, rfl, rfl, rfl, s.pc_advance_of_clear (Opcode.setsPc_byte .hlt) s.pc, ?_⟩,
    fetchedAlone_of_decode (decode_encode_append .hlt)⟩
  simp [KeepsRegsBut, KeepsMemory, KeepsOutput]

/-! ## The operand check

A bad register operand ends the instruction, before anything else that it does (40_sequencer.md R84). -/

theorem TakesBadRegister.withReg_eq {a : Byte} {s t : State} (h : TakesBadRegister [a] s t) (k : Reg → Result) :
    withReg a s k = .next t := by
  obtain ⟨b, hb, rfl⟩ := h
  obtain ⟨hge, rfl⟩ : 8 ≤ a.toNat ∧ a = b := by simpa using hb
  exact withReg_of_ge hge s k

theorem TakesBadRegister.withRegs_eq {a b : Byte} {s t : State} (h : TakesBadRegister [a, b] s t)
    (k : Reg → Reg → Result) : withRegs a b s k = .next t := by
  obtain ⟨r, ha, heq⟩ | ⟨ha, -⟩ := withReg_cases a s fun ra => withReg b s (k ra)
  · have hlt : ¬ 8 ≤ a.toNat := ha ▸ Nat.not_le.2 r.isLt
    have hb : TakesBadRegister [b] s t := by simpa [TakesBadRegister, hlt] using h
    exact heq.trans (hb.withReg_eq _)
  · have hA : TakesBadRegister [a] s t := by simpa [TakesBadRegister, ha] using h
    exact hA.withReg_eq _

theorem TakesBadRegister.exec_eq {i : Instr} {s t : State} (h : TakesBadRegister (regOperands i) s t) :
    exec i s = .next t := by
  cases i with
  | hlt | ret => obtain ⟨b, hb, -⟩ := h; cases hb
  | ldi | prn | push | pop | call => exact h.withReg_eq _
  | mul | add => exact h.withRegs_eq _

/-- A completed instruction halts a running machine only as HLT does, with the cause HALT. -/
theorem Completes.not_haltsWith {i : Instr} {s t : State} (h : Completes i s t) (hrun : s.run = .running)
    (c : FaultCause) (info : Word9) : ¬ HaltsWith c info s t := by
  rintro ⟨hhalted, hcause, -⟩
  by_cases hi : i = .hlt
  · subst hi
    cases h
    cases hcause
  · have hkept : t.run = s.run := (h.keepsStatus hi).1
    cases hhalted.symm.trans (hkept.trans hrun)

/-- Settles O21: the check answers the first bad byte, and without one the instruction completes or takes RETADDR_RANGE. -/
theorem badRegisterOperandHalts : Obligations.BadRegisterOperandHalts := by
  intro s i rest hrun hd
  have hstep := step_of_decode_ok hrun hd
  constructor
  · intro b hb
    exact ⟨_, hstep.trans (TakesBadRegister.exec_eq ⟨b, hb, rfl⟩), haltsWith_takeFault s _ _⟩
  · intro hnone t info hx hhalts
    obtain ⟨b, hb, -⟩ | ⟨a, -, -, rfl⟩ | hdone := exec_cases (hstep ▸ hx)
    · cases hnone.symm.trans hb
    · obtain ⟨-, hcause, -⟩ := hhalts
      cases hcause
    · exact hdone.not_haltsWith hrun _ _ hhalts

/-! ## `pc` after a step -/

theorem haltsWith_takeDecodeFault (s : State) (e : DecodeError) : ∃ c info, HaltsWith c info s (s.takeDecodeFault e) := by
  cases e with
  | missingByte k => exact ⟨_, _, haltsWith_takeFault s _ _⟩
  | unknownOpcode op => exact ⟨_, _, haltsWith_takeFault s _ _⟩

/-- A step that takes no fault completes the instruction at `pc`. -/
theorem completes_of_step {s t : State} (h : step s = .next t) (hno : ∀ c info, ¬ HaltsWith c info s t) :
    ∃ i rest, decode s.fetchWindow = .ok (i, rest) ∧ Completes i s t := by
  obtain ⟨-, ⟨i, rest, hd, hx⟩ | ⟨e, -, rfl⟩⟩ := step_cases h
  · obtain ⟨b, -, rfl⟩ | ⟨a, -, -, rfl⟩ | hdone := exec_cases hx
    · exact absurd (haltsWith_takeFault s _ _) (hno _ _)
    · exact absurd (haltsWith_takeFault s _ _) (hno _ _)
    · exact ⟨i, rest, hd, hdone⟩
  · obtain ⟨c, info, hhalts⟩ := haltsWith_takeDecodeFault s e
    exact absurd hhalts (hno c info)

theorem Completes.pc_of_clear {i : Instr} {s t : State} (h : Completes i s t) {op : Byte}
    (hop : (encode i)[0]? = some op) (hclear : opSetsPc op = false) : t.pc = s.pc + BitVec.ofNat 9 (opLength op) := by
  cases h with
  | call | ret => cases hop; cases hclear
  | hlt => cases hop; exact s.pc_advance_of_clear hclear s.pc
  | _ => cases hop; exact State.pc_advance_of_clear _ hclear s.pc

/-- Only CALL and RET have the sets-PC flag, and `pc` is what their handler made it (40_sequencer.md R87). -/
theorem Completes.pc_of_set {i : Instr} {s t : State} (h : Completes i s t) {op : Byte}
    (hop : (encode i)[0]? = some op) (hset : opSetsPc op = true) :
    (∃ (a : Byte) (r : Reg), i = .call a ∧ a.toNat = r.val ∧ t.pc = zext9 (t.reg r)) ∨
    (i = .ret ∧ t.pc = zext9 (s.byteAt s.sp.toNat)) := by
  cases h with
  | @call a r _ ha _ => exact .inl ⟨a, r, rfl, ha, by simp [Opcode.setsPc_byte]⟩
  | ret => exact .inr ⟨rfl, by simp [Opcode.setsPc_byte, State.topByte, State.load]⟩
  | _ => cases hop; cases hset

/-- Settles O7: a step without a fault completes an instruction that ends inside memory, so its advance is exact. -/
theorem pcAfterStep : Obligations.PcAfterStep := by
  intro s t h hno
  obtain ⟨i, rest, hd, hdone⟩ := completes_of_step h hno
  obtain ⟨o, operands, hcons, hlen⟩ := encodedLength i
  have hop : (encode i)[0]? = some o.byte := by rw [hcons]; rfl
  have hbyte {k : Nat} {b : Byte} (hb : (encode i)[k]? = some b) := byteAt_of_decode_fetchWindow hd hb
  have hbyte0 : s.byteAt s.pc.toNat = o.byte := hbyte hop
  rw [hbyte0]
  constructor
  · intro hclear
    have hfits := pc_add_length_le_of_decode_fetchWindow hd
    rw [hlen, opLength, opCount_eq_div] at hfits
    rw [hdone.pc_of_clear hop hclear, opLength, opCount_eq_div, BitVec.toNat_add, BitVec.toNat_ofNat]
    omega
  · intro hset
    obtain ⟨a, r, rfl, ha, hpc⟩ | ⟨rfl, hpc⟩ := hdone.pc_of_set hop hset
    · exact .inl ⟨(Option.some.inj hop).symm, r, by rw [hbyte rfl, ha], hpc⟩
    · exact .inr ⟨(Option.some.inj hop).symm, hpc⟩

/-! ## Reachable states -/

theorem State.Inv.of_construct {initRegs : Fin 7 → Byte} {initMem : Nat → Byte} {image : List Byte} {s : State}
    (h : State.construct initRegs initMem image = some s) : s.Inv := by
  rw [State.eq_of_construct h]
  exact ⟨Memory.wf_boot initMem image, Nat.zero_le 256, rfl, rfl, rfl⟩

theorem Reachable.inv {s : State} (h : Reachable s) : s.Inv := by
  induction h with
  | construct h => exact .of_construct h
  | step _ h ih => exact stepKeepsInvariant _ _ ih h

/-- A halted machine's record is HLT's or a fault's (40_sequencer.md R92). -/
theorem State.Inv.ended_of_halted {s : State} (hs : s.Inv) (hrun : s.run = .halted) :
    s.endedCleanly ∨ s.endedInError := by
  have hrecord := hs.record
  cases hcause : s.haltCause with
  | none =>
    have hrunning : s.run = .running := by rw [State.recordOk, hcause] at hrecord; exact hrecord.1
    cases hrun.symm.trans hrunning
  | halt => exact .inl ⟨hrun, hcause⟩
  | fault c => exact .inr ⟨hrun, c, hcause⟩

/-- Settles O35: reset meets the invariant and every step keeps it, and a halted machine's record says how it ended. -/
theorem reachableStatesRunOrHaveEnded : Obligations.ReachableStatesRunOrHaveEnded := by
  intro s h
  refine ⟨h.inv, ?_⟩
  cases hrun : s.run with
  | running => exact .inl ⟨rfl, exists_step_eq_next_of_running hrun⟩
  | halted => exact .inr ⟨h.inv.ended_of_halted hrun, step_of_halted hrun⟩

end Sys2Proof.Machine

/-! PROOFS: data movement (41_data_movement.md). First the fetch of a row with its operand bytes and the operand check, each
said once for all instructions; then the obligations. -/

namespace Sys2Proof

/-- A row that is short of an operand byte reports the first one missing (40_sequencer.md R83). -/
theorem decode_of_operand_missing {o : Opcode} {bs : List Byte} (h : bs.length < opCount o.byte) :
    decode (o.byte :: bs) = .error (.missingByte (bs.length + 1)) := by
  cases hd : decode (o.byte :: bs) with
  | error e => rw [(decodeOperands_eq_error ((decode_cons_row o bs).symm.trans hd)).1]
  | ok d =>
    obtain ⟨-, -, hlen⟩ := length_of_decode_cons (rest := d.2) hd
    rw [List.length_cons, opLength] at hlen
    omega

end Sys2Proof

namespace Sys2Proof.Machine

/-! ## The fetch of a row with its operands -/

theorem stepHalts_fetchRange_of_operand_missing {o : Opcode} {s : State} (h : FetchesOpcode o.byte s)
    (hge : 256 ≤ s.pc.toNat + opCount o.byte) : StepHalts .fetchRange 256#9 s := by
  obtain ⟨hrun, hpc, hbyte⟩ := h
  have hcount := o.count_byte_lt
  have hlen := length_fetchWindow s
  have hcons := fetchWindow_eq_cons hpc
  rw [hbyte] at hcons
  have hd : decode s.fetchWindow = .error (.missingByte s.fetchWindow.length) := by
    rw [hcons, List.length_cons] at hlen ⊢
    exact decode_of_operand_missing (by omega)
  have hinfo : s.pc + BitVec.ofNat 9 s.fetchWindow.length = 256#9 := pc_add_length_fetchWindow hpc.le (by omega)
  exact ⟨_, step_of_decode_error hrun hd, hinfo ▸ haltsWith_takeFault s _ _⟩

/-- Where `n` operand bytes lie inside memory, the window begins with the opcode and these. -/
theorem fetchWindow_eq_operands_append {s : State} {n : Nat} (hn : n < 3) (hpc : s.pc.toNat + n < 256) :
    ∃ rest, s.fetchWindow =
      s.byteAt s.pc.toNat :: [s.byteAt (s.pc.toNat + 1), s.byteAt (s.pc.toNat + 2)].take n ++ rest := by
  rw [fetchWindow_of_pc_lt (by omega)]
  match n with
  | 0 => exact ⟨_, rfl⟩
  | 1 => rw [if_pos hpc]; exact ⟨_, rfl⟩
  | 2 => rw [if_pos (by omega), if_pos hpc]; exact ⟨[], rfl⟩

/-- A row of the opcode map whose instruction is encoded as the row's byte and its `n` operand bytes is fetched as that
instruction (40_sequencer.md R81, R83). -/
theorem fetchedAs_of_encode {o : Opcode} {n : Nat} {mk : Byte → Byte → Instr} (hn : opCount o.byte = n)
    (hmk : ∀ a b, encode (mk a b) = o.byte :: [a, b].take n) : FetchedAs o.byte n mk := by
  subst hn
  refine ⟨fun s => stepHalts_fetchRange_of_pc_ge, fun s => stepHalts_fetchRange_of_operand_missing,
    fun s ⟨hrun, _, hbyte⟩ hpc => ?_⟩
  obtain ⟨rest, hwindow⟩ := fetchWindow_eq_operands_append o.count_byte_lt hpc
  rw [hbyte, ← hmk] at hwindow
  exact step_of_decode_ok hrun (hwindow ▸ decode_encode_append _ rest)

/-! ## The operand check of a meaning -/

theorem firstBadRegister_of_operandA_ge {i : Instr} {a : Byte} {bs : List Byte} (hi : regOperands i = a :: bs)
    (ha : 8 ≤ a.toNat) : firstBadRegister i = some a := by
  rw [firstBadRegister, hi, List.find?_cons_of_pos (by simpa using ha)]

theorem execHalts_badRegister {i : Instr} {b : Byte} (h : firstBadRegister i = some b) (s : State) :
    ExecHalts i .badRegister (zext9 b) s :=
  ⟨_, TakesBadRegister.exec_eq ⟨b, h, rfl⟩, haltsWith_takeFault s _ _⟩

/-! ## LDI and PRN -/

/-- Settles O9: LDI completes with the register write and the advance, and its immediate is not checked. -/
theorem ldiLoadsImmediate : Obligations.LdiLoadsImmediate := by
  refine ⟨fun a imm r s ha => ?_, fun a imm s ha => execHalts_badRegister (firstBadRegister_of_operandA_ge rfl ha) s,
    fetchedAs_of_encode (o := .ldi) rfl fun _ _ => rfl⟩
  have hdone := Completes.ldi imm s ha
  refine ⟨_, hdone.exec_eq, by simp, State.pc_advance_of_clear _ (Opcode.setsPc_byte .ldi) s.pc, fun q hq => ?_,
    fun x => by simp, State.advance_out .., hdone.keepsStatus nofun⟩
  rw [State.reg_advance, State.reg_setReg_of_ne s (List.ne_of_not_mem_cons hq)]

/-- Settles O10: PRN completes with one console event and the advance. -/
theorem prnEmitsRegister : Obligations.PrnEmitsRegister := by
  refine ⟨fun a r s ha => ?_, fun a s ha => execHalts_badRegister (firstBadRegister_of_operandA_ge rfl ha) s,
    fetchedAs_of_encode (o := .prn) rfl fun _ _ => rfl⟩
  have hdone := Completes.prn s ha
  exact ⟨_, hdone.exec_eq, State.advance_out .., State.pc_advance_of_clear _ (Opcode.setsPc_byte .prn) s.pc,
    fun q _ => State.reg_advance .., fun x => by simp, hdone.keepsStatus nofun⟩

/-- Settles O17: PRN emits what the register holds, and LDI left the immediate there. -/
theorem ldiThenPrnOutputsValue : Obligations.LdiThenPrnOutputsValue := by
  intro a imm s ha
  have hldi := Completes.ldi (r := ⟨a.toNat, ha⟩) imm s rfl
  exact ⟨_, _, hldi.exec_eq, (Completes.prn (r := ⟨a.toNat, ha⟩) _ rfl).exec_eq, by simp⟩

end Sys2Proof.Machine

/-! PROOFS: the ALU (42_alu.md). First what MUL and ADD share, each said once: the write of a result and the check of two
register operands; then the obligations, INTERNAL's after what an unsupported operation and a step write as the cause. -/

namespace Sys2Proof.Machine

/-! ## MUL and ADD -/

/-- An instruction of three bytes that completes with the low 8 bits of `n` in one register leaves everything else but
`pc` alone (42_alu.md R111, R112, R114). -/
theorem Completes.aluWrite {i : Instr} {s : State} {r : Reg} {n : Nat} {o : Opcode}
    (h : Completes i s ((s.setReg r (BitVec.ofNat 8 n)).advance o.byte s.pc)) (hi : i ≠ .hlt)
    (hclear : opSetsPc o.byte = false) (hlen : opLength o.byte = 3) :
    ∃ t, exec i s = .next t ∧ (t.reg r).toNat = n % 256 ∧ t.pc = s.pc + 3#9 ∧
      KeepsRegsBut [r] s t ∧ KeepsMemory s t ∧ KeepsOutput s t ∧ KeepsStatus s t := by
  refine ⟨_, h.exec_eq, by simp, ?_, fun q hq => ?_, fun x => by simp, State.advance_out .., h.keepsStatus hi⟩
  · rw [State.pc_advance_of_clear _ hclear, hlen]
  · rw [State.reg_advance, State.reg_setReg_of_ne s (List.ne_of_not_mem_cons hq)]

theorem firstBadRegister_of_operandB_ge {i : Instr} {a b : Byte} {bs : List Byte} (hi : regOperands i = a :: b :: bs)
    (ha : a.toNat < 8) (hb : 8 ≤ b.toNat) : firstBadRegister i = some b := by
  rw [firstBadRegister, hi, List.find?_cons_of_neg (by simpa using ha), List.find?_cons_of_pos (by simpa using hb)]

/-- Settles O11: MUL completes with the product's low 8 bits, or takes BAD_REGISTER for its first bad operand. -/
theorem mulMultipliesModulo256 : Obligations.MulMultipliesModulo256 :=
  ⟨fun _ _ _ _ s ha hb => (Completes.mul s ha hb).aluWrite nofun (Opcode.setsPc_byte .mul) rfl,
    fun _ _ s ha => execHalts_badRegister (firstBadRegister_of_operandA_ge rfl ha) s,
    fun _ _ s ha hb => execHalts_badRegister (firstBadRegister_of_operandB_ge rfl ha hb) s,
    fetchedAs_of_encode (o := .mul) rfl fun _ _ => rfl⟩

/-- Settles O12: ADD completes with the sum's low 8 bits, or takes BAD_REGISTER for its first bad operand. -/
theorem addAddsModulo256 : Obligations.AddAddsModulo256 :=
  ⟨fun _ _ _ _ s ha hb => (Completes.add s ha hb).aluWrite nofun (Opcode.setsPc_byte .add) rfl,
    fun _ _ s ha => execHalts_badRegister (firstBadRegister_of_operandA_ge rfl ha) s,
    fun _ _ s ha hb => execHalts_badRegister (firstBadRegister_of_operandB_ge rfl ha hb) s,
    fetchedAs_of_encode (o := .add) rfl fun _ _ => rfl⟩

/-! ## INTERNAL -/

theorem aluResult_eq_none {op : Byte} (hmul : op ≠ Opcode.mul.byte) (hadd : op ≠ Opcode.add.byte) (u v : Byte) :
    aluResult op u v = none := by
  rw [aluResult, if_neg hmul, if_neg hadd]

theorem aluApply_of_unsupported {op : Byte} (hmul : op ≠ Opcode.mul.byte) (hadd : op ≠ Opcode.add.byte) (ra rb : Reg)
    (s : State) : aluApply op ra rb s = .next (s.takeFault .internal (zext9 op)) := by
  rw [aluApply, aluResult_eq_none hmul hadd]

theorem haltCause_takeDecodeFault_ne_internal (s : State) (e : DecodeError) :
    (s.takeDecodeFault e).haltCause ≠ .fault .internal := by
  cases e <;> nofun

/-- A completed instruction writes no cause but HLT's (10_state.md R28). -/
theorem Completes.haltCause_eq {i : Instr} {s t : State} (h : Completes i s t) :
    t.haltCause = .halt ∨ t.haltCause = s.haltCause := by
  by_cases hi : i = .hlt
  · subst hi
    cases h
    exact .inl rfl
  · obtain ⟨-, hcause, -⟩ := h.keepsStatus hi
    exact .inr hcause

/-- A decoded instruction's ALU operation is MUL or ADD, so none of them comes to INTERNAL (60_exceptions.md R145). -/
theorem exec_keeps_haltCause_ne_internal {i : Instr} {s t : State} (h : exec i s = .next t)
    (hs : s.haltCause ≠ .fault .internal) : t.haltCause ≠ .fault .internal := by
  obtain ⟨b, -, rfl⟩ | ⟨a, -, -, rfl⟩ | hdone := exec_cases h
  · nofun
  · nofun
  · obtain hhalt | hkept := hdone.haltCause_eq
    · rw [hhalt]; nofun
    · rwa [hkept]

/-- Settles O22: another operation has no ALU result, and neither a decode fault nor an instruction writes INTERNAL. -/
theorem internalFaultIsUnreachable : Obligations.InternalFaultIsUnreachable := by
  refine ⟨fun op ra rb s hmul hadd => ?_, fun s t h hs => ?_⟩
  · exact ⟨_, aluApply_of_unsupported hmul hadd ra rb s, haltsWith_takeFault s _ _⟩
  · obtain ⟨-, ⟨i, rest, -, hx⟩ | ⟨e, -, rfl⟩⟩ := step_cases h
    · exact exec_keeps_haltCause_ne_internal hx hs
    · exact haltCause_takeDecodeFault_ne_internal s e

end Sys2Proof.Machine

/-! PROOFS: the stack and the calls (43_stack_call.md). First what PUSH and CALL share, what POP and RET share, and CALL's
return address; then the four instructions, and the two laws of instruction pairs from the statements about these. -/

namespace Sys2Proof.Machine

/-! ## Push and pop -/

/-- What an instruction leaves that completes with the registers and the memory of a push: PUSH and CALL differ in the byte
they store and in `pc` only (43_stack_call.md R121, R123). -/
theorem Completes.stack_of_pushByte {i : Instr} {s t : State} (h : Completes i s t) (hi : i ≠ .hlt) (hs : s.mem.wf)
    {v : State → Byte} (hregs : t.regs = (s.pushByte v).regs) (hmem : t.mem = (s.pushByte v).mem) :
    t.sp = s.sp - 1#8 ∧ t.byteAt (s.sp - 1#8).toNat = v s.decSp ∧
      KeepsRegsBut [7] s t ∧ KeepsMemoryBut (s.sp - 1#8) s t ∧ KeepsStatus s t := by
  have hreg (q : Reg) : t.reg q = if q = 7 then s.sp - 1#8 else s.reg q := by
    rw [State.reg, hregs, ← State.reg, State.reg_pushByte]
  have hbyte (x : Nat) : t.byteAt x = (s.pushByte v).byteAt x := by rw [State.byteAt, hmem, ← State.byteAt]
  refine ⟨hreg 7, ?_, fun q hq => ?_, fun x hx => ?_, h.keepsStatus hi⟩
  · rw [hbyte, State.byteAt_pushByte_self hs]
  · rw [hreg, if_neg (List.ne_of_not_mem_cons hq)]
  · rw [hbyte, State.byteAt_pushByte_of_ne s v hx]

theorem State.reg_incSp_of_ne (s : State) {q : Reg} (h : q ≠ 7) : s.incSp.reg q = s.reg q := by
  rw [State.regs_incSp, if_neg h]

/-! ## The jump of CALL and RET -/

/-- The advance of an opcode whose sets-PC flag is set (40_sequencer.md R87). -/
theorem State.pc_advance_of_set (s : State) {op : Byte} (h : opSetsPc op = true) (w : Word9) :
    (s.advance op w).pc = s.pc := by simp [h]

theorem toNat_low8_returnAddress {s : State} (h : s.pc.toNat + 2 < 256) :
    (low8 (returnAddress s)).toNat = s.pc.toNat + 2 := by
  rw [low8, returnAddress, BitVec.toNat_setWidth, BitVec.toNat_add, BitVec.toNat_ofNat]
  omega

/-- CALL with a valid register, where its return address lies past memory (60_exceptions.md R144). -/
theorem exec_call_of_retaddr_ge {a : Byte} {r : Reg} {s : State} (ha : a.toNat = r.val) (h : 256 ≤ s.pc.toNat + 2) :
    exec (.call a) s = .next (s.takeFault .retaddrRange (returnAddress s)) :=
  (withReg_of_eq ha s _).trans (if_pos h)

/-! ## The four instructions -/

/-- Settles O13: PUSH completes with a push of the register, read after the decrement, and the advance. -/
theorem pushStoresRegister : Obligations.PushStoresRegister := by
  refine ⟨fun a r s hs ha => ?_, fun a s ha => execHalts_badRegister (firstBadRegister_of_operandA_ge rfl ha) s,
    fetchedAs_of_encode (o := .push) rfl fun _ _ => rfl⟩
  have hdone := Completes.push s ha
  obtain ⟨hsp, hcell, hregs, hmem, hstatus⟩ :=
    hdone.stack_of_pushByte nofun hs (State.advance_regs ..) (State.advance_mem ..)
  exact ⟨_, hdone.exec_eq, hsp, hcell.trans (State.regs_decSp s r),
    State.pc_advance_of_clear _ (Opcode.setsPc_byte .push) s.pc, hregs, hmem, State.advance_out .., hstatus⟩

/-- Settles O14: POP completes with the register write, the increment of what then is `sp`, and the advance. -/
theorem popLoadsRegister : Obligations.PopLoadsRegister := by
  refine ⟨fun a r s ha => ?_, fun a s ha => execHalts_badRegister (firstBadRegister_of_operandA_ge rfl ha) s,
    fetchedAs_of_encode (o := .pop) rfl fun _ _ => rfl⟩
  have hdone := Completes.pop s ha
  refine ⟨_, hdone.exec_eq, fun hr => ⟨?_, ?_⟩, fun hr => ?_,
    State.pc_advance_of_clear _ (Opcode.setsPc_byte .pop) s.pc, fun q hq => ?_, fun x => by simp,
    State.advance_out .., hdone.keepsStatus nofun⟩
  · rw [State.reg_advance, State.reg_incSp_of_ne _ hr, State.reg_setReg_self, State.topByte, State.load]
  · simp [State.reg_setReg_of_ne s (Ne.symm hr)]
  · subst hr
    simp [State.topByte, State.load]
  · obtain ⟨hqr, hq7⟩ : q ≠ r ∧ q ≠ 7 := by simpa using hq
    rw [State.reg_advance, State.reg_incSp_of_ne _ hq7, State.reg_setReg_of_ne s hqr]

/-- Settles O15: CALL completes with a push of the return address and the jump, or takes RETADDR_RANGE or BAD_REGISTER. -/
theorem callPushesReturnAddressAndJumps : Obligations.CallPushesReturnAddressAndJumps := by
  refine ⟨fun a r s hs ha hpc => ?_, fun a s ha hpc => ?_,
    fun a s ha => execHalts_badRegister (firstBadRegister_of_operandA_ge rfl ha) s,
    fetchedAs_of_encode (o := .call) rfl fun _ _ => rfl⟩
  · have hdone := Completes.call s ha hpc
    obtain ⟨hsp, hcell, hregs, hmem, hstatus⟩ :=
      hdone.stack_of_pushByte nofun hs (v := fun _ => low8 (returnAddress s)) (State.advance_regs ..)
        (State.advance_mem ..)
    refine ⟨_, hdone.exec_eq, hsp, ?_, ?_, hregs, hmem, State.advance_out .., hstatus⟩
    · rw [hcell, toNat_low8_returnAddress hpc]
    · rw [State.pc_advance_of_set _ (Opcode.setsPc_byte .call), State.setPc_pc, State.reg_pushByte]
  · have hret : returnAddress s = 256#9 := by rw [returnAddress, hpc]; rfl
    have hge : 256 ≤ s.pc.toNat + 2 := by rw [hpc]; rfl
    exact ⟨_, exec_call_of_retaddr_ge (r := ⟨a.toNat, ha⟩) rfl hge, hret ▸ haltsWith_takeFault s _ _⟩

/-- Settles O16: RET completes with the jump to the top byte and the increment of `sp`, and the advance is none. -/
theorem retPopsPc : Obligations.RetPopsPc := by
  refine ⟨fun s => ?_, fetchedAlone_of_decode (decode_encode_append .ret)⟩
  refine ⟨_, rfl, ?_, ?_, fun q hq => ?_, fun x => by simp, State.advance_out .., (Completes.ret s).keepsStatus nofun⟩
  · rw [State.pc_advance_of_set _ (Opcode.setsPc_byte .ret), State.incSp_pc, State.setPc_pc, State.topByte,
      State.load]
  · simp
  · rw [State.reg_advance, State.reg_incSp_of_ne _ (List.ne_of_not_mem_cons hq), State.reg_setPc]

/-! ## Pairs of instructions -/

/-- Settles O18: POP loads the byte that PUSH stored and undoes its decrement, except where R7 is an operand. -/
theorem pushPopRoundTrip : Obligations.PushPopRoundTrip := by
  intro a a2 r r2 s hs ha ha2
  obtain ⟨t, hpush, hsp, hcell, -⟩ := pushStoresRegister.1 a r s hs ha
  obtain ⟨u, hpop, hother, hseven, -⟩ := popLoadsRegister.1 a2 r2 t ha2
  rw [hsp, hcell] at hother hseven
  rw [BitVec.sub_add_cancel] at hother
  refine ⟨t, u, hpush, hpop, fun hr hr2 => ?_, fun hr hr2 => ?_, fun hr hr2 => ?_, fun hr hr2 => ?_⟩
  · simpa [hr] using hother hr2
  · obtain ⟨hval, -⟩ := hother hr2
    rw [if_pos hr] at hval
    exact ⟨hval, by rw [hval]; bv_omega⟩
  · simpa [hr] using hseven hr2
  · rw [hseven hr2, if_pos hr, BitVec.sub_add_cancel]

/-- Settles O19: the byte at `sp` is the return address that CALL stored, and RET undoes CALL's decrement. -/
theorem retReturnsAfterCall : Obligations.RetReturnsAfterCall := by
  intro a s t u hs ha hpc hcall hsp htop
  obtain ⟨t', hcall', hsp', hcell, -⟩ := callPushesReturnAddressAndJumps.1 a ⟨a.toNat, ha⟩ s hs rfl hpc
  obtain rfl : t = t' := Host.Outcome.next.inj (hcall.symm.trans hcall')
  obtain ⟨v, hret, hvpc, hvsp, -⟩ := retPopsPc.1 u
  refine ⟨v, hret, ?_, ?_⟩
  · rw [hvpc, toNat_zext9, hsp, htop, hsp', hcell]
  · rw [hvsp, hsp, hsp', BitVec.sub_add_cancel]

end Sys2Proof.Machine

/-! PROOFS: exceptions (60_exceptions.md). First that a step without a fault completes an instruction; then the checks of
R148 over the bytes at `pc`, each with the fault that the step takes there; the obligations each after the facts it needs. -/

namespace Sys2Proof

/-- The instruction of a row with the two candidate operand bytes, of which it takes as many as the row declares
(40_sequencer.md R83, R85). -/
def Opcode.instr : Opcode → Byte → Byte → Instr
  | .hlt, _, _ => .hlt
  | .ldi, a, b => .ldi a b
  | .prn, a, _ => .prn a
  | .mul, a, b => .mul a b
  | .add, a, b => .add a b
  | .push, a, _ => .push a
  | .pop, a, _ => .pop a
  | .call, a, _ => .call a
  | .ret, _, _ => .ret

theorem Opcode.encode_instr (o : Opcode) (a b : Byte) :
    encode (o.instr a b) = o.byte :: [a, b].take (opCount o.byte) := by
  cases o <;> rfl

theorem Opcode.eq_call_of_instr_eq {o : Opcode} {a b c : Byte} (h : o.instr a b = .call c) : o = .call := by
  cases o with
  | call => rfl
  | _ => cases h

end Sys2Proof

namespace Sys2Proof.Machine

/-! ## A step faults or completes -/

theorem step_faults_or_completes {s t : State} (h : step s = .next t) :
    (∃ c info, HaltsWith c info s t) ∨ ∃ i rest, decode s.fetchWindow = .ok (i, rest) ∧ Completes i s t := by
  by_cases hfault : ∃ c info, HaltsWith c info s t
  · exact .inl hfault
  · exact .inr (completes_of_step h fun c info hc => hfault ⟨c, info, hc⟩)

/-- Settles O24: a completed instruction other than HLT keeps the running flag, and HLT writes `pc` and the halt alone. -/
theorem haltingStepIsHltOrPreciseFault : Obligations.HaltingStepIsHltOrPreciseFault := by
  intro s t h hhalted
  obtain hfault | ⟨i, rest, hd, hdone⟩ := step_faults_or_completes h
  · exact .inr hfault
  · have hrun : s.run = .running := (step_cases h).1
    by_cases hi : i = .hlt
    · subst hi
      obtain ⟨hhlt, -⟩ := hltAdvancesThenHalts
      obtain ⟨u, hu, -, hcause, -, hkept⟩ := hhlt s
      obtain rfl := hdone.eq_of_exec hu
      have hop : s.byteAt (s.pc.toNat + 0) = 0x01#8 := byteAt_of_decode_fetchWindow hd rfl
      exact .inl ⟨hop, hcause, hkept⟩
    · have hkept : t.run = s.run := (hdone.keepsStatus hi).1
      cases hhalted.symm.trans (hkept.trans hrun)

/-! ## Output -/

/-- Of the instructions that complete, only PRN writes the output (60_exceptions.md R153). -/
theorem Completes.out_cases {i : Instr} {s t : State} (h : Completes i s t) :
    t.out = s.out ∨ ∃ (a : Byte) (r : Reg), i = .prn a ∧ a.toNat = r.val ∧ t.out = s.out ++ [s.reg r] := by
  cases h with
  | @prn a r _ ha => exact .inr ⟨a, r, rfl, ha, State.advance_out ..⟩
  | _ => exact .inl (State.advance_out ..)

/-- Settles O28: a fault keeps the output, and of the instructions that complete only PRN does not. -/
theorem outputGrowsOnlyByPrn : Obligations.OutputGrowsOnlyByPrn := by
  intro s t h
  obtain ⟨c, info, -, -, -, -, -, -, -, hout⟩ | ⟨i, rest, hd, hdone⟩ := step_faults_or_completes h
  · exact .inl hout
  · obtain hout | ⟨a, r, rfl, ha, hout⟩ := hdone.out_cases
    · exact .inl hout
    · have hop : s.byteAt (s.pc.toNat + 0) = 0x47#8 := byteAt_of_decode_fetchWindow hd rfl
      have hA : s.byteAt (s.pc.toNat + 1) = a := byteAt_of_decode_fetchWindow hd rfl
      exact .inr ⟨hop, r, hA ▸ ha, hout⟩

/-! ## Fetch past memory -/

theorem stepHalts_fetchRange_of_specOpcode {s : State} (hrun : s.run = .running) (hpc : s.pc.toNat < 256)
    (hop : s.byteAt s.pc.toNat ∈ specOpcodes) (hge : 256 ≤ s.pc.toNat + (s.byteAt s.pc.toNat).toNat / 64) :
    StepHalts .fetchRange 256#9 s := by
  obtain ⟨o, ho⟩ := mem_specOpcodes.1 hop
  rw [ho, ← opCount_eq_div] at hge
  exact stepHalts_fetchRange_of_operand_missing ⟨hrun, hpc, ho⟩ hge

/-- Settles O20: the listed opcode bytes declare at least one and at least two operand bytes, the last one past memory. -/
theorem fetchPastMemoryHalts : Obligations.FetchPastMemoryHalts := by
  have hone : ∀ op ∈ [0x82#8, 0xA2#8, 0xA0#8, 0x47#8, 0x45#8, 0x46#8, 0x50#8],
      op ∈ specOpcodes ∧ 1 ≤ op.toNat / 64 := by decide
  have htwo : ∀ op ∈ [0x82#8, 0xA2#8, 0xA0#8], op ∈ specOpcodes ∧ 2 ≤ op.toNat / 64 := by decide
  refine fun s hrun => ⟨stepHalts_fetchRange_of_pc_ge hrun, fun hpc hmem => ?_, fun hpc hmem => ?_⟩
  · obtain ⟨hop, hcount⟩ := hone _ hmem
    rw [← hpc] at hop hcount
    exact stepHalts_fetchRange_of_specOpcode hrun (by omega) hop (by omega)
  · obtain ⟨hop, hcount⟩ := htwo _ hmem
    rw [← hpc] at hop hcount
    exact stepHalts_fetchRange_of_specOpcode hrun (by omega) hop (by omega)

/-! ## The priority list -/

/-- The operand check as R148 writes it over the opcode byte and the two bytes after it: only HLT and RET have no register
operand A, and only MUL and ADD have a register operand B (30_encoding.md R65). -/
theorem firstBadRegister_instr (o : Opcode) (a b : Byte) :
    firstBadRegister (o.instr a b) =
      if o.byte ∉ [0x01#8, 0x11#8] ∧ 8 ≤ a.toNat then some a
      else if o.byte ∈ [0xA2#8, 0xA0#8] ∧ 8 ≤ b.toNat then some b
      else none := by
  cases o with
  | hlt | ret => rfl
  | ldi | prn | push | pop | call =>
    by_cases ha : 8 ≤ a.toNat <;> simp [firstBadRegister, regOperands, Opcode.instr, Opcode.byte, ha]
  | mul | add =>
    by_cases ha : 8 ≤ a.toNat <;> by_cases hb : 8 ≤ b.toNat <;>
      simp [firstBadRegister, regOperands, Opcode.instr, Opcode.byte, ha, hb]

/-- A row whose operand bytes lie inside memory runs as its instruction (40_sequencer.md R85). -/
theorem step_eq_exec_instr {o : Opcode} {s : State} (h : FetchesOpcode o.byte s)
    (hpc : s.pc.toNat + opCount o.byte < 256) :
    step s = exec (o.instr (s.byteAt (s.pc.toNat + 1)) (s.byteAt (s.pc.toNat + 2))) s := by
  obtain ⟨-, -, hexec⟩ := fetchedAs_of_encode rfl o.encode_instr
  exact hexec s h hpc

/-- What R148 says of the step where a check of its list fails, and where none does. -/
def StepTakes (s : State) : Option (FaultCause × Word9) → Prop
  | some (c, info) => StepHalts c info s
  | none => ∃ t, step s = .next t ∧ ∀ c info, ¬ HaltsWith c info s t

theorem stepHalts_of_execHalts {i : Instr} {s : State} {c : FaultCause} {info : Word9} (hstep : step s = exec i s)
    (h : ExecHalts i c info s) : StepHalts c info s := by rwa [StepHalts, hstep]

/-- An instruction whose operands pass the check takes no fault, but for a CALL without a return address. -/
theorem stepTakes_none {i : Instr} {s : State} (hrun : s.run = .running) (hstep : step s = exec i s)
    (hreg : firstBadRegister i = none) (hcall : ∀ a, i = .call a → s.pc.toNat + 2 < 256) : StepTakes s none := by
  obtain ⟨t, ht⟩ := exists_exec_eq_next i s
  refine ⟨t, hstep.trans ht, ?_⟩
  obtain ⟨b, hb, -⟩ | ⟨a, hi, hge, -⟩ | hdone := exec_cases ht
  · cases hreg.symm.trans hb
  · exact absurd (hcall a hi) (Nat.not_lt.2 hge)
  · exact hdone.not_haltsWith hrun

/-- One check of the list: where it fails the step takes its fault, and else what the rest of the list says. -/
theorem stepTakes_check {s : State} {p : Prop} [Decidable p] {c : FaultCause} {info : Word9}
    {others : Option (FaultCause × Word9)} (hfails : p → StepHalts c info s) (hpasses : ¬ p → StepTakes s others) :
    StepTakes s (if p then some (c, info) else others) := by
  split
  next hp => exact hfails hp
  next hp => exact hpasses hp

/-- The checks of the operands, of an instruction whose bytes lie inside memory. -/
theorem stepTakes_operandChecks {o : Opcode} {s : State} {a b : Byte} (hrun : s.run = .running)
    (hstep : step s = exec (o.instr a b) s) (hfits : s.pc.toNat + opCount o.byte < 256) :
    StepTakes s (
      if o.byte ∉ [0x01#8, 0x11#8] ∧ 8 ≤ a.toNat then some (.badRegister, zext9 a)
      else if o.byte ∈ [0xA2#8, 0xA0#8] ∧ 8 ≤ b.toNat then some (.badRegister, zext9 b)
      else if o.byte = 0x50#8 ∧ s.pc.toNat = 254 then some (.retaddrRange, 256#9)
      else none) := by
  have hreg := firstBadRegister_instr o a b
  have hbad {v : Byte} (hv : firstBadRegister (o.instr a b) = some v) : StepHalts .badRegister (zext9 v) s :=
    stepHalts_of_execHalts hstep (execHalts_badRegister hv s)
  refine stepTakes_check (fun hA => hbad (by rw [hreg, if_pos hA])) fun hA => ?_
  refine stepTakes_check (fun hB => hbad (by rw [hreg, if_neg hA, if_pos hB])) fun hB => ?_
  rw [if_neg hA, if_neg hB] at hreg
  refine stepTakes_check (fun ⟨ho, hpc⟩ => ?_) fun hcall => stepTakes_none hrun hstep hreg fun c hc => ?_
  · obtain rfl : o = .call := Opcode.byte_injective ho
    have ha : a.toNat < 8 := Nat.not_le.1 fun hge => hA ⟨by decide, hge⟩
    obtain ⟨-, hret, -⟩ := callPushesReturnAddressAndJumps
    exact stepHalts_of_execHalts hstep (hret a s ha (BitVec.eq_of_toNat_eq hpc))
  · obtain rfl := Opcode.eq_call_of_instr_eq hc
    have hne : s.pc.toNat ≠ 254 := fun hpc => hcall ⟨rfl, hpc⟩
    have hcount : opCount Opcode.call.byte = 1 := Opcode.count_byte .call
    omega

/-- The checks of the fetch, and after them those of the operands. -/
theorem stepTakes_firstFault {s : State} (hrun : s.run = .running) : StepTakes s (firstFault s) := by
  obtain ⟨-, hillegal⟩ := otherBytesAreIllegalOpcodes
  refine stepTakes_check (stepHalts_fetchRange_of_pc_ge hrun) fun hpc => ?_
  rw [Nat.not_le] at hpc
  refine stepTakes_check (fun hop => hillegal _ s hop ⟨hrun, hpc, rfl⟩) fun hop => ?_
  rw [not_not] at hop
  refine stepTakes_check (stepHalts_fetchRange_of_specOpcode hrun hpc hop) fun hfits => ?_
  obtain ⟨o, ho⟩ := mem_specOpcodes.1 hop
  rw [ho, ← opCount_eq_div, Nat.not_le] at hfits
  rw [ho]
  exact stepTakes_operandChecks hrun (step_eq_exec_instr ⟨hrun, hpc, ho⟩ hfits) hfits

/-- Settles O23: the step follows the list, check for check. -/
theorem stepTakesFirstFaultOfPriorityList : Obligations.StepTakesFirstFaultOfPriorityList := by
  intro s hrun
  have h := stepTakes_firstFault hrun
  exact ⟨fun c info hf => by rwa [hf] at h, fun hf => by rwa [hf] at h⟩

end Sys2Proof.Machine
